-- ==== Sys2Proof/Word.lean ====
section
/-! DEFINITION. The two word types of the block: an 8-bit byte (spec/00_scope.md R13) and a 32-bit word with bit 31
most significant and bit 0 least (R10). -/

namespace Sys2Proof

/-- One byte of a byte string (R13). -/
abbrev Byte := BitVec 8

/-- One 32-bit word; bit `i` of the spec is `w.getLsbD i` (R10). -/
abbrev Word := BitVec 32

/-- A byte string: a finite sequence of bytes indexed from 0; `‖` is `++` (R13). -/
abbrev Bytes := List Byte

end Sys2Proof
end

