-- ==== Sys2Proof/Syntax.lean ====
section
/-! DEFINITION. The instructions: one constructor for each row of spec/opcode_table.json. The four command words carry
their LEN field, since every acceptance latches it and a fault records it (spec/30_encoding.md R90, R92,
spec/10_state.md R33, R34). Micro-operations have no operand field (R92). -/

namespace Sys2Proof

/-- Commands (format CMD, R91) and micro-operations (format USEQ, R97). -/
inductive Instr where
  /-- `HASH`, OP = 01 (R110). -/
  | hash (len : BitVec 7)
  /-- `DERIVE_MASKS`, OP = 10, LEN ignored (R160). -/
  | deriveMasks (len : BitVec 7)
  /-- `BITREV32`, OP = 11, LEN ignored (R180). -/
  | bitrev32 (len : BitVec 7)
  /-- The reserved command code, OP = 00 (R192). -/
  | reservedOp0 (len : BitVec 7)
  /-- Code 1 (R111). -/
  | hHefty
  /-- Code 2 (R112). -/
  | hSha
  /-- Code 3 (R113). -/
  | hKInit
  /-- Code 4 (R114). -/
  | hKUpdIn
  /-- Code 5 (R115). -/
  | hKUpdH1
  /-- Code 6 (R116). -/
  | hKFin
  /-- Code 7 (R117). -/
  | hGInit
  /-- Code 8 (R118). -/
  | hGUpdIn
  /-- Code 9 (R119). -/
  | hGUpdH1
  /-- Code 10 (R120). -/
  | hGFin
  /-- Code 11 (R121). -/
  | hBInit
  /-- Code 12 (R122). -/
  | hBUpdIn
  /-- Code 13 (R123). -/
  | hBUpdH1
  /-- Code 14 (R124). -/
  | hBFin
  /-- Code 15 (R140). -/
  | hCombine
  /-- Code 16 (R161). -/
  | mTbits
  /-- Code 17 (R165). -/
  | mMasks
  /-- Code 18 (R180). -/
  | rRev
deriving DecidableEq, Repr

end Sys2Proof
end

