-- ==== Sys2Proof/Config.lean ====
section
/-! DEFINITION. What the spec fixes for the machine (spec/00_scope.md R8), the types of its named parameters (R9),
the five hash engines, which stay uninterpreted (R6, spec/20_memory.md R76), and the free values. -/

namespace Sys2Proof

/-- How four bytes make one word: the type of `WORD_BYTE_ORDER` (R9, R64). -/
inductive ByteOrder where
  | little
  | big
deriving DecidableEq, Repr

/-- The three context engines Keccak-512, Groestl-512, Blake-512 (R73, R74, R75). -/
inductive AuxEngine where
  | keccak
  | groestl
  | blake
deriving DecidableEq, Repr

/-- The three auxiliary digest registers AUX1, AUX2, AUX3 (R27). -/
inductive AuxSlot where
  | aux1
  | aux2
  | aux3
deriving DecidableEq, Repr

/-- A binary interchange format: the type of `DIFF_FORMAT` (R9). The fraction is the lowest field, the biased exponent
stands above it, the sign above that. -/
structure FloatFormat where
  expBits : Nat
  fracBits : Nat
deriving DecidableEq, Repr

/-- IEEE 754 binary64 (spec/10_state.md R23). -/
def FloatFormat.binary64 : FloatFormat := ⟨11, 52⟩

/-- A Keccak-512 context, the opaque type `Ctx_K` of R37, carried as a byte string whose layout only the engine knows
(log 4). -/
structure CtxK where
  bytes : Bytes
deriving DecidableEq, Repr, Inhabited

/-- A Groestl-512 context, the opaque type `Ctx_G` of R37 (log 4). -/
structure CtxG where
  bytes : Bytes
deriving DecidableEq, Repr, Inhabited

/-- A Blake-512 context, the opaque type `Ctx_B` of R37 (log 4). -/
structure CtxB where
  bytes : Bytes
deriving DecidableEq, Repr, Inhabited

/-- The interface of an incremental engine: `init`, `update`, `finalize` (R73 to R75). Nothing relates two updates to
one: the streaming law is not assumed (R76). -/
structure ContextEngine (κ : Type) where
  init : κ
  update : κ → Bytes → κ
  finalize : κ → Vector Byte 64
deriving Inhabited

/-- The five engines (R71 to R75): total and deterministic, a 32-byte or a 64-byte digest (R70, R76). -/
structure Engines where
  hefty1 : Bytes → Vector Byte 32
  sha256 : Bytes → Vector Byte 32
  keccak512 : ContextEngine CtxK
  groestl512 : ContextEngine CtxG
  blake512 : ContextEngine CtxB
deriving Inhabited

/-- For each register that can hold no value, or no value the host may take, what a read of it then answers, as a function
of the bits left in it (spec/10_state.md R40: "stale or power-up bits"; log 1). -/
structure FreeValues where
  diff : BitVec 64 → BitVec 64
  brin : Word → Word
  h1 : Vector Byte 32 → Vector Byte 32
  h2 : Vector Word 8 → Vector Word 8
  aux1 : Vector Word 16 → Vector Word 16
  aux2 : Vector Word 16 → Vector Word 16
  aux3 : Vector Word 16 → Vector Word 16
  out : Vector Word 8 → Vector Word 8
  tbits : BitVec 11 → BitVec 11
  mask : Vector Word 4 → Vector Word 4
  brout : Word → Word
  kc : CtxK → CtxK
  gc : CtxG → CtxG
  bc : CtxB → CtxB
deriving Inhabited

namespace Config

/-- The free values of instance `chip` after `resets` reset steps. Nothing can be proved of them but their type: the
spec gives these reads no value (R40, spec/60_exceptions.md R207). That they are a function of these two numbers and of the
bits left in the register is the model's choice (DESIGN CHOICE, log 1). -/
opaque noValue (chip resets : Nat) : FreeValues

/-- The platform's five engines, uninterpreted: a free value, of which nothing can be proved but its type (R6, R76;
log 5). -/
opaque engines : Engines

/-- `LEN_A`, one of the two legal header lengths (R8). -/
abbrev lenA : BitVec 7 := 80

/-- `LEN_B`, the other legal header length (R8). -/
abbrev lenB : BitVec 7 := 84

/-- The size of HDR in bytes: addresses 0 to 83 exist and no other (R22, R60). -/
abbrev hdrSize : Nat := 84

end Config

end Sys2Proof
end

