-- ==== Sys2Proof/Machine/Ports.lean ====
section
/-! DEFINITION. The plain data that crosses the block's ports: what the host can do and read (spec/30_encoding.md R99,
spec/10_state.md R41) and the calls on the engine streams (spec/20_memory.md R60, R70). -/

namespace Sys2Proof.Machine

/-- The twelve valid flags, by the register each guards (spec/10_state.md R35). -/
inductive Flag where
  | h1
  | h2
  | aux1
  | aux2
  | aux3
  | kc
  | gc
  | bc
  | out
  | tbits
  | mask
  | br
deriving DecidableEq, Repr

/-- What the host can read (R41): one byte of HDR, a named register, a valid flag, or the ready line of the command
port (R33). The engine contexts, `b` and ACC have no read path. -/
inductive HostReg where
  | hdr (addr : Nat)
  | diff
  | brin
  | opr
  | lenr
  | seq
  | status
  | faultInfo
  | cmdReady
  | valid (f : Flag)
  | h1
  | h2
  | aux1
  | aux2
  | aux3
  | out
  | tbits
  | mask
  | brout
deriving DecidableEq, Repr

/-- One result of a host read: the register and the unsigned value of each of its words, or of its bytes for H1 and
HDR (log 18). -/
structure ReadBack where
  reg : HostReg
  value : List Nat
deriving DecidableEq, Repr

/-- One host action (R99). The first seven act at once; `hold`, `wait` and `tick` let the sequencer move (log 11,
log 12). -/
inductive HostAct where
  /-- `WRHDR a, b0 b1 ...`; `FILLHDR a, n, v` is `wrHdr a (List.replicate n v)` (R62). -/
  | wrHdr (addr : Nat) (bytes : Bytes)
  /-- `WRDIFF x`. -/
  | wrDiff (x : BitVec 64)
  /-- `WRBRIN w`. -/
  | wrBrin (w : Word)
  /-- Drive the command port with a word and its valid strobe (R33). -/
  | present (c : BitVec 9)
  /-- Take the presented word away again (R226). -/
  | withdraw
  /-- `RD X`. -/
  | read (r : HostReg)
  /-- `RESET`: a step with `rst` asserted (R220). -/
  | rst
  /-- Keep the presented word on the port until it is accepted (R99, R226). -/
  | hold
  /-- `WAIT`: read STATUS until BUSY = 0 (R99). -/
  | wait
  /-- Let the sequencer move once. -/
  | tick
deriving DecidableEq, Repr

/-- One transaction on an engine stream, as the block sends it (R70 to R75). -/
inductive EngineCall where
  | hefty1 (m : Bytes)
  | sha256 (m : Bytes)
  | init (e : AuxEngine)
  | update (e : AuxEngine) (m : Bytes)
  | finalize (e : AuxEngine)
deriving DecidableEq, Repr

end Sys2Proof.Machine
end

