-- ==== Sys2Proof/WellFormed.lean ====
section
/-! DEFINITION. The checks on terms: of an instruction (spec/30_encoding.md R93), of a host action (spec/20_memory.md
R62) and of an engine call (R78). -/

namespace Sys2Proof

/-- An instruction is well formed when its encoding is one of the format's words. LEN is a 7-bit value by its type and
every value of it is an encoding (R93: decoding is total on all 512 words), so there is nothing to refuse. -/
def Instr.wellFormed : Instr → Bool
  | .hash _ | .deriveMasks _ | .bitrev32 _ | .reservedOp0 _ => true
  | .hHefty | .hSha => true
  | .hKInit | .hKUpdIn | .hKUpdH1 | .hKFin => true
  | .hGInit | .hGUpdIn | .hGUpdH1 | .hGFin => true
  | .hBInit | .hBUpdIn | .hBUpdH1 | .hBFin => true
  | .hCombine | .mTbits | .mMasks | .rRev => true

/-- A header write moves at least one byte and stays inside addresses 0 to 83; a read names an address that exists
(R60, R62). Every other action is well formed. -/
def Machine.HostAct.wellFormed : Machine.HostAct → Bool
  | .wrHdr a bytes => bytes ≠ [] && a + bytes.length ≤ Config.hdrSize
  | .read (.hdr a) => a < Config.hdrSize
  | .read _ => true
  | .wrDiff _ | .wrBrin _ | .present _ | .withdraw | .rst | .hold | .wait | .tick => true

/-- The message lengths the block may send (R78): 80 or 84 to HEFTY1, 112 or 116 to SHA256, the header or the 32 bytes
of H1 to an `update`. -/
def Machine.EngineCall.wellFormed : Machine.EngineCall → Bool
  | .hefty1 m => m.length = 80 || m.length = 84
  | .sha256 m => m.length = 112 || m.length = 116
  | .update _ m => m.length = 80 || m.length = 84 || m.length = 32
  | .init _ | .finalize _ => true

end Sys2Proof
end

