-- ==== Sys2Proof/Decode.lean ====
section
/-! DEFINITION. The two formats of spec/30_encoding.md (R90, R95, R96): the decoder, total and rejecting by name (R93,
R101), and the encoder written from the same tables (R91, R97). -/

namespace Sys2Proof

/-- The values of SEQ (spec/30_encoding.md R97). -/
abbrev Useq.idle : BitVec 5 := 0
abbrev Useq.hHefty : BitVec 5 := 1
abbrev Useq.hSha : BitVec 5 := 2
abbrev Useq.hKInit : BitVec 5 := 3
abbrev Useq.hKUpdIn : BitVec 5 := 4
abbrev Useq.hKUpdH1 : BitVec 5 := 5
abbrev Useq.hKFin : BitVec 5 := 6
abbrev Useq.hGInit : BitVec 5 := 7
abbrev Useq.hGUpdIn : BitVec 5 := 8
abbrev Useq.hGUpdH1 : BitVec 5 := 9
abbrev Useq.hGFin : BitVec 5 := 10
abbrev Useq.hBInit : BitVec 5 := 11
abbrev Useq.hBUpdIn : BitVec 5 := 12
abbrev Useq.hBUpdH1 : BitVec 5 := 13
abbrev Useq.hBFin : BitVec 5 := 14
abbrev Useq.hCombine : BitVec 5 := 15
abbrev Useq.mTbits : BitVec 5 := 16
abbrev Useq.mMasks : BitVec 5 := 17
abbrev Useq.rRev : BitVec 5 := 18
abbrev Useq.halt : BitVec 5 := 31

/-- The command codes (R91). -/
abbrev Op.reserved : BitVec 2 := 0
abbrev Op.hash : BitVec 2 := 1
abbrev Op.deriveMasks : BitVec 2 := 2
abbrev Op.bitrev32 : BitVec 2 := 3

/-- The OP field, bits 1:0 of a command word (R90). -/
def cmdOp (c : BitVec 9) : BitVec 2 := c.extractLsb' 0 2

/-- The LEN field, bits 8:2 of a command word (R90, R92). -/
def cmdLen (c : BitVec 9) : BitVec 7 := c.extractLsb' 2 7

/-- The command word with the given fields (R90). -/
def cmdWord (len : BitVec 7) (op : BitVec 2) : BitVec 9 := len ++ op

/-- A word of one of the two formats (R95). -/
inductive Code where
  | cmd (c : BitVec 9)
  | useq (u : BitVec 5)
deriving DecidableEq, Repr

/-- Why a code names no instruction. -/
inductive DecodeError where
  /-- SEQ code 0 is the state IDLE, no micro-operation (R97). -/
  | idleState
  /-- SEQ code 31 is the state HALT, no micro-operation (R97). -/
  | haltState
  /-- SEQ codes 19 to 30 are unused (R93). -/
  | unusedCode
  /-- More bits than the format has (R95). -/
  | tooWide
deriving DecidableEq, Repr

/-- Decode a command word: total on all 512 values (R91, R93, R101). -/
def decodeCmd (c : BitVec 9) : Instr :=
  if cmdOp c = Op.hash then .hash (cmdLen c)
  else if cmdOp c = Op.deriveMasks then .deriveMasks (cmdLen c)
  else if cmdOp c = Op.bitrev32 then .bitrev32 (cmdLen c)
  else .reservedOp0 (cmdLen c)

/-- Decode a SEQ value: row `u` of the table of R97 (R93, R101). -/
def decodeUseq (u : BitVec 5) : Except DecodeError Instr :=
  match u.toNat with
  | 0 => .error .idleState
  | 1 => .ok .hHefty
  | 2 => .ok .hSha
  | 3 => .ok .hKInit
  | 4 => .ok .hKUpdIn
  | 5 => .ok .hKUpdH1
  | 6 => .ok .hKFin
  | 7 => .ok .hGInit
  | 8 => .ok .hGUpdIn
  | 9 => .ok .hGUpdH1
  | 10 => .ok .hGFin
  | 11 => .ok .hBInit
  | 12 => .ok .hBUpdIn
  | 13 => .ok .hBUpdH1
  | 14 => .ok .hBFin
  | 15 => .ok .hCombine
  | 16 => .ok .mTbits
  | 17 => .ok .mMasks
  | 18 => .ok .rRev
  | 31 => .error .haltState
  | _ => .error .unusedCode

/-- Decode a word of either format. -/
def decode : Code → Except DecodeError Instr
  | .cmd c => .ok (decodeCmd c)
  | .useq u => decodeUseq u

/-- Encode an instruction, from the patterns of R91 and the codes of R97. -/
def encode : Instr → Code
  | .hash len => .cmd (cmdWord len Op.hash)
  | .deriveMasks len => .cmd (cmdWord len Op.deriveMasks)
  | .bitrev32 len => .cmd (cmdWord len Op.bitrev32)
  | .reservedOp0 len => .cmd (cmdWord len Op.reserved)
  | .hHefty => .useq Useq.hHefty
  | .hSha => .useq Useq.hSha
  | .hKInit => .useq Useq.hKInit
  | .hKUpdIn => .useq Useq.hKUpdIn
  | .hKUpdH1 => .useq Useq.hKUpdH1
  | .hKFin => .useq Useq.hKFin
  | .hGInit => .useq Useq.hGInit
  | .hGUpdIn => .useq Useq.hGUpdIn
  | .hGUpdH1 => .useq Useq.hGUpdH1
  | .hGFin => .useq Useq.hGFin
  | .hBInit => .useq Useq.hBInit
  | .hBUpdIn => .useq Useq.hBUpdIn
  | .hBUpdH1 => .useq Useq.hBUpdH1
  | .hBFin => .useq Useq.hBFin
  | .hCombine => .useq Useq.hCombine
  | .mTbits => .useq Useq.mTbits
  | .mMasks => .useq Useq.mMasks
  | .rRev => .useq Useq.rRev

/-- The code an instruction word of spec/opcode_table.json stands for. Its rows are 5 bits wide (format USEQ, one byte)
or 9 bits wide (format CMD, two bytes); a bit above the format's width makes the word no code (R95). -/
def tableCode (nbits w : Nat) : Except DecodeError Code :=
  if nbits ≤ 8 then
    if w < 32 then .ok (.useq (BitVec.ofNat 5 w)) else .error .tooWide
  else
    if w < 512 then .ok (.cmd (BitVec.ofNat 9 w)) else .error .tooWide

/-- Decode the bytes of an instruction word, the first byte holding bits 7:0. Total on any bytes: one byte is a USEQ
code, two are a command word, and anything else is rejected by name (R93, R95). -/
def decodeBytes : Bytes → Except DecodeError Instr
  | [b] => tableCode 8 b.toNat >>= decode
  | [b0, b1] => tableCode 16 (b0.toNat + 2 ^ 8 * b1.toNat) >>= decode
  | _ => .error .tooWide

/-- The bytes of an instruction word of `nbits` bits, low byte first. -/
def tableBytes (nbits w : Nat) : Bytes :=
  if nbits ≤ 8 then
    if w < 2 ^ 8 then [BitVec.ofNat 8 w] else []
  else
    if w < 2 ^ 16 then [BitVec.ofNat 8 w, BitVec.ofNat 8 (w / 2 ^ 8)] else []

/-- The instruction the decoder reads from a word of spec/opcode_table.json's numbering (the host's question). -/
def decodeTableWord (nbits w : Nat) : Option Instr := (decodeBytes (tableBytes nbits w)).toOption

end Sys2Proof
end

