-- ==== Sys2Proof/Machine/Float.lean ====
section
/-! DEFINITION. The difficulty as a floating-point pattern in a given format (spec/42_maskderiver.md R171) and the
integer nearest to its logarithm (R164), for any format; which format DIFF has is a parameter. -/

namespace Sys2Proof.Machine

/-- The sign bit of a pattern (R171: `DIFF[63]`). -/
def signIn (F : FloatFormat) (d : BitVec 64) : Bool := d.getLsbD (F.fracBits + F.expBits)

/-- The biased exponent (R171: `DIFF[62:52]`). -/
def expIn (F : FloatFormat) (d : BitVec 64) : Nat := (d.extractLsb' F.fracBits F.expBits).toNat

/-- The fraction (R171: `DIFF[51:0]`). -/
def fracIn (F : FloatFormat) (d : BitVec 64) : Nat := (d.extractLsb' 0 F.fracBits).toNat

/-- The exponent bias (R171, R164: 1023). -/
def biasIn (F : FloatFormat) : Nat := 2 ^ (F.expBits - 1) - 1

/-- The classes of a pattern (R171). -/
inductive FloatClass where
  | nan
  | infinite
  | zero
  | finite
deriving DecidableEq, Repr

/-- The class of a pattern (R171). -/
def classIn (F : FloatFormat) (d : BitVec 64) : FloatClass :=
  if expIn F d = 2 ^ F.expBits - 1 then (if fracIn F d = 0 then .infinite else .nan)
  else if expIn F d = 0 ∧ fracIn F d = 0 then .zero
  else .finite

/-- Positive finite: the domain of LOG2ROUND (R171). -/
def positiveFiniteIn (F : FloatFormat) (d : BitVec 64) : Bool := classIn F d = .finite && !signIn F d

/-- The bit length of a positive number (R164). -/
def bitLength (n : Nat) : Nat := Nat.log2 n + 1

/-- The normalised significand and exponent of a positive finite pattern: `d = M * 2^(E - p)` with
`2^p ≤ M < 2^(p + 1)`, where `p` is the width of the fraction (R164: `p = 52`). -/
def normaliseIn (F : FloatFormat) (d : BitVec 64) : Nat × Int :=
  if 1 ≤ expIn F d then (2 ^ F.fracBits + fracIn F d, (expIn F d : Int) - biasIn F)
  else
    (fracIn F d * 2 ^ (F.fracBits + 1 - bitLength (fracIn F d)),
      (bitLength (fracIn F d) : Int) - (biasIn F + F.fracBits : Nat))

/-- The significand is below `sqrt 2`, so the exponent is not rounded up (R164: `M^2 < 2^105`, which is
`M ≤ 6369051672525772`; `roundsDown_binary64`). -/
def roundsDown (F : FloatFormat) (M : Nat) : Bool := M * M < 2 ^ (2 * F.fracBits + 1)

/-- The integer nearest to `log2(d)` (R164). -/
def nearestLog2 (F : FloatFormat) (d : BitVec 64) : Int :=
  if roundsDown F (normaliseIn F d).1 then (normaliseIn F d).2 else (normaliseIn F d).2 + 1

end Sys2Proof.Machine
end

