-- ==== Sys2Proof/Machine/Parameters.lean ====
section
/-! DEFINITION. The values of the constants and of the named parameters (spec/00_scope.md R8, R9). They stand here, each
one definition, because a parameter is what a test of the real hardware could show wrong. -/

namespace Sys2Proof

namespace Config

/-- `TBITS_FLOOR` (R8). -/
def tbitsFloor : Nat := 16

/-- `SHIFT_MAX` (R8). -/
def shiftMax : Nat := 31

/-- `OFFSETS`: the offset of each mask slot, slot 0 first (R8, R167). -/
def offsets : Vector Nat 4 := #v[3, 2, 1, 0]

/-- `TBITS_BASE`. UNVERIFIED: R9 and R169 take 31 and name 16 as the alternative (log 8). -/
def tbitsBase : Int := 31

/-- `DIFF_FORMAT`. UNVERIFIED: R9 and R171 take binary64 (log 10). -/
def diffFormat : FloatFormat := .binary64

/-- `LOG2ROUND`. UNVERIFIED against any library: R9 and R164 take the exact nearest integer (log 9). -/
def log2Round : BitVec 64 → Int := Machine.nearestLog2 diffFormat

/-- `WORD_BYTE_ORDER`. UNVERIFIED: R9 and R64 take little-endian (log 6). -/
def wordByteOrder : ByteOrder := .little

/-- `AUX_BINDING`: the register each engine's digest goes to. UNVERIFIED: R9 and R27 bind in listing order (log 7). -/
def auxBinding : AuxEngine → AuxSlot
  | .keccak => .aux1
  | .groestl => .aux2
  | .blake => .aux3

/-- `SEQ_ORDER`: the micro-operation codes of each command in the order they run (R9, R97; log 21). -/
def seqOrder : List (List (BitVec 5)) :=
  [[1, 2, 3, 4, 5, 6, 7, 8, 9, 10, 11, 12, 13, 14, 15], [16, 17], [18]]

end Config

end Sys2Proof
end

