-- ==== Sys2Proof/Machine/Bits.lean ====
section
/-! DEFINITION. Bit-level helpers: a word built bit by bit, the 32-bit shifts of spec/00_scope.md R14, and the word and
byte views of spec/20_memory.md R64 and R65. -/

namespace Sys2Proof.Machine

/-- The word of `n` bits whose bit `i` is `f i` (R10). -/
def ofBits : (n : Nat) → (Nat → Bool) → BitVec n
  | 0, _ => 0#0
  | n + 1, f => BitVec.cons (f n) (ofBits n f)

/-- `w` with bit `i` set to `b`. -/
def setBit {n : Nat} (w : BitVec n) (i : Nat) (b : Bool) : BitVec n :=
  ofBits n fun j => if j = i then b else w.getLsbD j

/-- `shl32(w, n)`, defined for counts 0 to 31 only (R14): no other count can be written (spec/93 U1). -/
def shl32 (w : Word) (n : Fin 32) : Word := BitVec.ofNat 32 (w.toNat * 2 ^ n.val)

/-- `shr32(w, n)`, counts 0 to 31 (R14). -/
def shr32 (w : Word) (n : Fin 32) : Word := BitVec.ofNat 32 (w.toNat / 2 ^ n.val)

/-- Four bytes as one word (R64). -/
def wordOf (o : ByteOrder) (b0 b1 b2 b3 : Byte) : Word :=
  match o with
  | .little => b3 ++ b2 ++ b1 ++ b0
  | .big => b0 ++ b1 ++ b2 ++ b3

/-- `Words(s)`, the word view of a string of `4 n` bytes (R64). -/
def wordsOf (o : ByteOrder) (n : Nat) (s : Vector Byte (4 * n)) : Vector Word n :=
  Vector.ofFn fun i =>
    wordOf o (s[4 * i.val]'(by omega)) (s[4 * i.val + 1]'(by omega))
      (s[4 * i.val + 2]'(by omega)) (s[4 * i.val + 3]'(by omega))

/-- Byte `j` of a word in the byte order `o` (R65). -/
def byteOf (o : ByteOrder) (w : Word) (j : Nat) : Byte :=
  match o with
  | .little => w.extractLsb' (8 * j) 8
  | .big => w.extractLsb' (8 * (3 - j)) 8

/-- `Bytes(X)`, the byte view of `n` words (R65). -/
def bytesOf (o : ByteOrder) {n : Nat} (x : Vector Word n) : Vector Byte (4 * n) :=
  Vector.ofFn fun i => byteOf o (x[i.val / 4]'(by omega)) (i.val % 4)

end Sys2Proof.Machine
end

