-- ==== Sys2Proof/Machine/State.lean ====
section
/-! DEFINITION. The state of one instance of the block (spec/10_state.md), its reset value (R42), the model faults
(spec/60_exceptions.md R207) and the refusals. INVENTORY.md lists every field with its rule. -/

namespace Sys2Proof.Machine

/-- The header buffer as written bytes in address order; an address that is not listed holds no value (R40; log 3). -/
abbrev Memory := List Host.Cell

/-- The canonical form: addresses strictly rising, all of them inside HDR (R22, R60). -/
abbrev Memory.wf (m : Memory) : Prop :=
  (m.map Prod.fst).Pairwise (· < ·) ∧ ∀ c ∈ m, c.1 < Config.hdrSize

/-- One instance of the block, and the host that drives it. Rules are of spec/10_state.md. -/
structure State where
  /-- HDR, the header buffer (R22). -/
  hdr : Memory
  /-- DIFF, a binary64 pattern (R23). -/
  diff : BitVec 64
  /-- Model's own: the host has written DIFF since reset, so it holds a value (R40). -/
  diffSet : Bool
  /-- BRIN (R24). -/
  brin : Word
  /-- Model's own: the host has written BRIN since reset (R40). -/
  brinSet : Bool
  /-- The command port: the presented word, if the valid strobe is up (R33). -/
  cmd : Option (BitVec 9)
  /-- OPR, the latched command code (R33). -/
  opr : BitVec 2
  /-- LENR, the latched length (R33). -/
  lenr : BitVec 7
  /-- SEQ, the program counter (R30). -/
  seq : BitVec 5
  /-- STATUS: BUSY 0, DONE 1, ERR_LEN 2, ERR_OP 3 (R32). -/
  status : BitVec 8
  /-- FAULTINFO (R34). -/
  faultInfo : BitVec 9
  /-- H1_V, and so on: the valid flags (R35). -/
  h1V : Bool
  h2V : Bool
  aux1V : Bool
  aux2V : Bool
  aux3V : Bool
  kcV : Bool
  gcV : Bool
  bcV : Bool
  outV : Bool
  tbitsV : Bool
  maskV : Bool
  brV : Bool
  /-- H1, held as bytes (R25). -/
  h1 : Vector Byte 32
  /-- H2 (R26). -/
  h2 : Vector Word 8
  /-- AUX1, AUX2, AUX3 (R27). -/
  aux1 : Vector Word 16
  aux2 : Vector Word 16
  aux3 : Vector Word 16
  /-- OUT (R28). -/
  out : Vector Word 8
  /-- TBITS (R29). -/
  tbits : BitVec 11
  /-- MASK[0..3] (R29). -/
  mask : Vector Word 4
  /-- BROUT (R36). -/
  brout : Word
  /-- KC, GC, BC, the engine contexts (R37). -/
  kc : CtxK
  gc : CtxG
  bc : CtxB
  /-- The bit count `b` of the combiner's bit-serial form (R38, R41). -/
  bitCount : BitVec 9
  /-- ACC[0..7], the combiner's accumulator (R38). -/
  acc : Vector Word 8
  /-- The host's remaining actions, oldest first (R20, R99; log 11). -/
  host : List HostAct
  /-- Model's own: what the host has read, oldest first (R99; log 18). -/
  reads : List ReadBack
  /-- Model's own: the calls made on the engine streams since reset, oldest first (R60, R128; log 18). -/
  engineCalls : List EngineCall
  /-- Model's own: which physical instance this is, on which its stale and power-up bits depend (R40, R45; log 1). No
  instruction and no host action reads or writes it. -/
  chip : Nat
  /-- Model's own: how many reset steps it has taken, on which its power-up bits depend (R40, R42; log 1). -/
  resets : Nat
deriving DecidableEq, Repr

/-- The model's faults: breaches of the host's contract that the hardware does not signal and the spec gives no meaning
(R40: "a model should fault (its own model fault, ...), never choose a value"; spec/60_exceptions.md R207: "it must
never give the result a value"). The hardware's own faults ErrLen and ErrOp are no member: they are next states, in
HALT (R193). A read of a register raises none: where the spec gives it no value it answers a free value (logs 1 and 14).
All are safe: the model stops where the hardware goes on with bits nobody knows. -/
inductive Fault where
  /-- A micro-operation or the host reads a byte of HDR that has not been written since reset (R40, R61; log 3). -/
  | headerNoValue
  /-- A header access outside addresses 0 to 83, or a header write of no byte (spec/20_memory.md R60, R62; log 15).
  Raised by a host access, and by a header operand longer than HDR (log 23). -/
  | noSuchAddress
  /-- The host writes HDR, DIFF or BRIN while BUSY = 1 (spec/70_reset_and_hazards.md R223, R224; log 13). -/
  | hostWriteWhileBusy
deriving DecidableEq, Repr

/-- No meaning. -/
inductive Refusal where
  /-- An arm of exec that has no meaning yet. Raised by exec only; safe. -/
  | notModelled (mnemonic : String)
  /-- SEQ holds one of the unused codes 19 to 30, which no run reaches (spec/30_encoding.md R93; log 17). Raised
  by the sequencer's fetch; safe. -/
  | unusedSeqCode
deriving DecidableEq, Repr

/-- The outcome of one step of this machine. -/
abbrev Out := Host.Outcome State Fault Refusal

/-- The machine right after reset (R42): control state and flags zero. Every data register is unspecified: the number
of log 2 stands in its field, and until it is written a read of it answers a free value (R40; log 1). -/
def State.reset : State where
  hdr := []
  diff := 0
  diffSet := false
  brin := 0
  brinSet := false
  cmd := none
  opr := 0
  lenr := 0
  seq := 0
  status := 0
  faultInfo := 0
  h1V := false
  h2V := false
  aux1V := false
  aux2V := false
  aux3V := false
  kcV := false
  gcV := false
  bcV := false
  outV := false
  tbitsV := false
  maskV := false
  brV := false
  h1 := Vector.replicate 32 0
  h2 := Vector.replicate 8 0
  aux1 := Vector.replicate 16 0
  aux2 := Vector.replicate 16 0
  aux3 := Vector.replicate 16 0
  out := Vector.replicate 8 0
  tbits := 0
  mask := Vector.replicate 4 0
  brout := 0
  kc := ⟨[]⟩
  gc := ⟨[]⟩
  bc := ⟨[]⟩
  bitCount := 0
  acc := Vector.replicate 8 0
  host := []
  reads := []
  engineCalls := []
  chip := 0
  resets := 0

end Sys2Proof.Machine
end

