-- ==== Sys2Proof/Machine/Flags.lean ====
section
/-! DEFINITION. The fields of STATUS (spec/10_state.md R32) and the twelve valid flags (R35), read and written. -/

namespace Sys2Proof.Machine

/-- STATUS bit 0 (R32). -/
def State.busy (s : State) : Bool := s.status.getLsbD 0

/-- STATUS bit 1 (R32). -/
def State.done (s : State) : Bool := s.status.getLsbD 1

/-- STATUS bit 2 (R32). -/
def State.errLen (s : State) : Bool := s.status.getLsbD 2

/-- STATUS bit 3 (R32). -/
def State.errOp (s : State) : Bool := s.status.getLsbD 3

/-- STATUS with BUSY and DONE set as given; the other bits stay. -/
def withBusyDone (st : BitVec 8) (busy done : Bool) : BitVec 8 := setBit (setBit st 0 busy) 1 done

/-- The ready line of the command port (R33). -/
def State.cmdReady (s : State) : Bool := s.seq = 0

/-- The valid flag of a register (R35). -/
def State.flag (s : State) : Flag → Bool
  | .h1 => s.h1V
  | .h2 => s.h2V
  | .aux1 => s.aux1V
  | .aux2 => s.aux2V
  | .aux3 => s.aux3V
  | .kc => s.kcV
  | .gc => s.gcV
  | .bc => s.bcV
  | .out => s.outV
  | .tbits => s.tbitsV
  | .mask => s.maskV
  | .br => s.brV

/-- Write one valid flag. -/
def State.setFlag (s : State) (f : Flag) (b : Bool) : State :=
  match f with
  | .h1 => { s with h1V := b }
  | .h2 => { s with h2V := b }
  | .aux1 => { s with aux1V := b }
  | .aux2 => { s with aux2V := b }
  | .aux3 => { s with aux3V := b }
  | .kc => { s with kcV := b }
  | .gc => { s with gcV := b }
  | .bc => { s with bcV := b }
  | .out => { s with outV := b }
  | .tbits => { s with tbitsV := b }
  | .mask => { s with maskV := b }
  | .br => { s with brV := b }

/-- The nine flags `HASH` clears at acceptance (R35, spec/30_encoding.md R94). -/
def clearHashFlags (s : State) : State :=
  { s with
    h1V := false, h2V := false, aux1V := false, aux2V := false, aux3V := false,
    kcV := false, gcV := false, bcV := false, outV := false }

/-- The two flags `DERIVE_MASKS` clears at acceptance (R35, R94). -/
def clearMaskFlags (s : State) : State := { s with tbitsV := false, maskV := false }

/-- The flag `BITREV32` clears at acceptance (R35, R94). -/
def clearRevFlag (s : State) : State := { s with brV := false }

end Sys2Proof.Machine
end

