-- ==== Sys2Proof/Machine/Ops.lean ====
section
/-! DEFINITION. The shared operations: the header buffer, command acceptance, the engine streams, the end of a
micro-operation, taking a hardware fault and leaving it by reset. -/

namespace Sys2Proof.Machine

/-- The byte at an address, if one has been written (spec/20_memory.md R61, spec/10_state.md R40). -/
def Memory.readByte : Memory → Nat → Option Byte
  | [], _ => none
  | (b, v) :: m, a => if a = b then some v else Memory.readByte m a

/-- Write one byte, keeping the canonical form (R62). -/
def Memory.writeByte : Memory → Nat → Byte → Memory
  | [], a, v => [(a, v)]
  | (b, w) :: m, a, v =>
    if a < b then (a, v) :: (b, w) :: m
    else if a = b then (a, v) :: m
    else (b, w) :: Memory.writeByte m a v

/-- `MemRead(a, n)`: the bytes at `a` up to `a + n - 1` in ascending order, if all hold a value (R61). -/
def Memory.readBytes (m : Memory) (a : Nat) : Nat → Option Bytes
  | 0 => some []
  | n + 1 => do
    let v ← m.readByte a
    let vs ← m.readBytes (a + 1) n
    return v :: vs

/-- `MemWrite(a, n, v)`: the bytes at `a`, `a + 1`, ... (R62). -/
def Memory.writeBytes (m : Memory) (a : Nat) : Bytes → Memory
  | [] => m
  | v :: vs => Memory.writeBytes (m.writeByte a v) (a + 1) vs

/-- The code that runs after code `u` in a list of codes run in order. -/
def nextIn (u : BitVec 5) : List (BitVec 5) → Option (BitVec 5)
  | [] => none
  | [_] => none
  | x :: y :: l => if u = x then some y else nextIn u (y :: l)

/-- The successor of a micro-operation: the next code of its command in `SEQ_ORDER`, and IDLE after the last
(spec/30_encoding.md R97, spec/10_state.md R31). -/
def successor (u : BitVec 5) : BitVec 5 := (Config.seqOrder.findSome? (nextIn u)).getD Useq.idle

/-- The end of micro-operation `u`: SEQ takes its successor, and where that is IDLE the command is over, BUSY <- 0 and
DONE <- 1 (R97, R31). -/
def advance (u : BitVec 5) (s : State) : State :=
  if successor u = Useq.idle then
    { s with status := withBusyDone s.status false true, seq := Useq.idle }
  else { s with seq := successor u }

/-- Send one message on an engine stream (R60, R70). -/
def State.send (s : State) (c : EngineCall) : State := { s with engineCalls := s.engineCalls ++ [c] }

/-- Write an auxiliary digest register and set its valid flag (R27, spec/00_scope.md R15). -/
def State.writeAux (s : State) (slot : AuxSlot) (d : Vector Word 16) : State :=
  match slot with
  | .aux1 => { s with aux1 := d, aux1V := true }
  | .aux2 => { s with aux2 := d, aux2V := true }
  | .aux3 => { s with aux3 := d, aux3V := true }

/-- OPR and LENR take the fields of the accepted word (spec/10_state.md R33). -/
def latch (c : BitVec 9) (s : State) : State := { s with opr := cmdOp c, lenr := cmdLen c }

/-- The two hardware faults (spec/60_exceptions.md R190). -/
inductive HwFault where
  | errLen
  | errOp
deriving DecidableEq, Repr

/-- The STATUS bit of a hardware fault (R190). -/
def HwFault.statusBit : HwFault → Nat
  | .errLen => 2
  | .errOp => 3

/-- Taking a hardware fault: exactly the writes of spec/60_exceptions.md R193, in one step. There is no handler and no
saved address; control goes to HALT. -/
def raiseFault (f : HwFault) (c : BitVec 9) (s : State) : State :=
  { s with
    opr := cmdOp c
    lenr := cmdLen c
    faultInfo := c
    status := withBusyDone (setBit s.status f.statusBit true) false false
    seq := Useq.halt }

/-- A step with `rst` asserted, the only way out of HALT (R198, spec/70_reset_and_hazards.md R220, R221): every piece
of the instance's state takes its reset value. The host keeps its own remaining actions and what it has read, and
the instance stays the one it is, with one reset step more behind it (log 19). -/
def resetBlock (s : State) : State :=
  { State.reset with host := s.host, reads := s.reads, chip := s.chip, resets := s.resets + 1 }

/-- A command that is not in error begins: DONE <- 0, BUSY <- 1, SEQ at its first micro-operation (R94). -/
def startCommand (first : BitVec 5) (s : State) : State :=
  { s with status := withBusyDone s.status true false, seq := first }

/-- Acceptance of the command word `c` (spec/30_encoding.md R94). With SEQ not IDLE the command is not taken and
nothing changes; otherwise OPR and LENR are latched and `body` does what the command's code asks. -/
def acceptCommand (c : BitVec 9) (body : State → State) (s : State) : Out :=
  if s.seq = Useq.idle then .next (body (latch c s)) else .next s

end Sys2Proof.Machine
end

