-- ==== Sys2Proof/Machine/Operands.lean ====
section
/-! DEFINITION. The operand forms: the header string, a register behind a valid flag, the two scalar inputs, and the
fields of DIFF in its format. A header byte that holds no value stops the micro-operation (log 3). A register that holds
no value is read as a free value: the spec gives its bits no value and the machine goes on with them (spec/10_state.md
R40, spec/60_exceptions.md R207; log 1). -/

namespace Sys2Proof.Machine

/-- The header operand `MemRead(0, LENR)` (spec/20_memory.md R61). -/
def State.header (s : State) : Option Bytes := s.hdr.readBytes 0 s.lenr.toNat

/-- Go on with the header string. A length above 84 names addresses that do not exist (R60); no run reaches one (log 23). -/
def withHeader (s : State) (k : Bytes → Out) : Out :=
  if Config.hdrSize < s.lenr.toNat then .fault .noSuchAddress
  else match s.header with
    | some m => k m
    | none => .fault .headerNoValue

/-- What a read of a register with the bits `v` answers: `v` if the spec gives the read a value, else the free value for
those bits (R40; log 1). Reading changes nothing, so a read is idempotent (spec/20_memory.md R68). -/
def valueOf {α : Type} (given : Bool) (v : α) (free : α → α) : α := if given then v else free v

/-- The free values of this instance since its last reset. Two states of one instance with as many resets behind them have
the same, and two instances have no relation (DESIGN CHOICE, log 1). -/
def State.noValue (s : State) : FreeValues := Config.noValue s.chip s.resets

/-- DIFF as a micro-operation reads it (R23). -/
def State.diffValue (s : State) : BitVec 64 := valueOf s.diffSet s.diff s.noValue.diff

/-- BRIN as a micro-operation reads it (R24). -/
def State.brinValue (s : State) : Word := valueOf s.brinSet s.brin s.noValue.brin

/-- H1 as a micro-operation reads it (R25, R35). -/
def State.h1Value (s : State) : Vector Byte 32 := valueOf s.h1V s.h1 s.noValue.h1

/-- H2 as a micro-operation reads it (R26, R35). -/
def State.h2Value (s : State) : Vector Word 8 := valueOf s.h2V s.h2 s.noValue.h2

/-- AUX1 as a micro-operation reads it (R27, R35). -/
def State.aux1Value (s : State) : Vector Word 16 := valueOf s.aux1V s.aux1 s.noValue.aux1

/-- AUX2 as a micro-operation reads it (R27, R35). -/
def State.aux2Value (s : State) : Vector Word 16 := valueOf s.aux2V s.aux2 s.noValue.aux2

/-- AUX3 as a micro-operation reads it (R27, R35). -/
def State.aux3Value (s : State) : Vector Word 16 := valueOf s.aux3V s.aux3 s.noValue.aux3

/-- TBITS as a micro-operation reads it (R29, R35). -/
def State.tbitsValue (s : State) : BitVec 11 := valueOf s.tbitsV s.tbits s.noValue.tbits

/-- KC as a micro-operation reads it (R37, R35). -/
def State.kcValue (s : State) : CtxK := valueOf s.kcV s.kc s.noValue.kc

/-- GC as a micro-operation reads it (R37, R35). -/
def State.gcValue (s : State) : CtxG := valueOf s.gcV s.gc s.noValue.gc

/-- BC as a micro-operation reads it (R37, R35). -/
def State.bcValue (s : State) : CtxB := valueOf s.bcV s.bc s.noValue.bc

/-- `DIFF[62:52]` (spec/42_maskderiver.md R171). -/
abbrev expOf (d : BitVec 64) : Nat := expIn Config.diffFormat d

/-- `DIFF[51:0]` (R171). -/
abbrev fracOf (d : BitVec 64) : Nat := fracIn Config.diffFormat d

/-- Positive finite in the format of DIFF: the domain of LOG2ROUND (R171). -/
abbrev positiveFinite (d : BitVec 64) : Bool := positiveFiniteIn Config.diffFormat d

end Sys2Proof.Machine
end

