-- ==== Sys2Proof/Machine/HashChain.lean ====
section
/-! DEFINITION. The hash chain (spec/40_hashchain.md): micro-operations 1 to 14, over engines given as an argument, and
the values the chain computes as functions of the header (R110). -/

namespace Sys2Proof.Machine

/-- `Words` of a 32-byte digest under the configured byte order (R112, spec/20_memory.md R64). -/
def words8 (d : Vector Byte 32) : Vector Word 8 := wordsOf Config.wordByteOrder 8 d

/-- `Words` of a 64-byte digest under the configured byte order (R116). -/
def words16 (d : Vector Byte 64) : Vector Word 16 := wordsOf Config.wordByteOrder 16 d

/-- A context engine as the sequencer sees it: its name on the streams, its context register, read and written, and that
register's valid flag (spec/10_state.md R37). -/
structure CtxPort (κ : Type) where
  engine : AuxEngine
  flag : Flag
  get : State → κ
  put : κ → State → State

/-- KC (R37, R73). -/
def portK : CtxPort CtxK := ⟨.keccak, .kc, State.kcValue, fun c s => { s with kc := c }⟩

/-- GC (R37, R74). -/
def portG : CtxPort CtxG := ⟨.groestl, .gc, State.gcValue, fun c s => { s with gc := c }⟩

/-- BC (R37, R75). -/
def portB : CtxPort CtxB := ⟨.blake, .bc, State.bcValue, fun c s => { s with bc := c }⟩

/-- H_HEFTY over given engines (R111). -/
def heftyWith (E : Engines) (s : State) : Out :=
  withHeader s fun m =>
    .next (advance Useq.hHefty { s.send (.hefty1 m) with h1 := E.hefty1 m, h1V := true })

/-- H_SHA over given engines: the header bytes, then the 32 bytes of H1 (R112). -/
def shaWith (E : Engines) (s : State) : Out :=
  withHeader s fun m =>
    .next (advance Useq.hSha
      { s.send (.sha256 (m ++ s.h1Value.toList)) with
        h2 := words8 (E.sha256 (m ++ s.h1Value.toList)), h2V := true })

/-- The `init` of a context engine, as micro-operation `u` (R113). -/
def ctxInit {κ : Type} (P : CtxPort κ) (E : ContextEngine κ) (u : BitVec 5) (s : State) : Out :=
  .next (advance u ((P.put E.init (s.send (.init P.engine))).setFlag P.flag true))

/-- One `update` call of a context engine with the whole message `m`, as micro-operation `u` (R114, R115). -/
def ctxUpdate {κ : Type} (P : CtxPort κ) (E : ContextEngine κ) (u : BitVec 5) (m : Bytes) (s : State) : Out :=
  .next (advance u (P.put (E.update (P.get s) m) (s.send (.update P.engine m))))

/-- The `update` with the header (R114). -/
def ctxUpdateHeader {κ : Type} (P : CtxPort κ) (E : ContextEngine κ) (u : BitVec 5) (s : State) : Out :=
  withHeader s fun m => ctxUpdate P E u m s

/-- The separate `update` with the 32 bytes of H1 (R115, R128). -/
def ctxUpdateH1 {κ : Type} (P : CtxPort κ) (E : ContextEngine κ) (u : BitVec 5) (s : State) : Out :=
  ctxUpdate P E u s.h1Value.toList s

/-- The `finalize` of a context engine: its digest goes to the register bound to it, and the context is consumed
(R116, R27; log 25). -/
def ctxFinalize {κ : Type} (P : CtxPort κ) (E : ContextEngine κ) (u : BitVec 5) (s : State) : Out :=
  .next (advance u
    (((s.send (.finalize P.engine)).writeAux (Config.auxBinding P.engine)
      (words16 (E.finalize (P.get s)))).setFlag P.flag false))

/-- H_HEFTY (R111). -/
def execHHefty (s : State) : Out := heftyWith Config.engines s

/-- H_SHA (R112). -/
def execHSha (s : State) : Out := shaWith Config.engines s

/-- H_K_INIT (R113). -/
def execHKInit (s : State) : Out := ctxInit portK Config.engines.keccak512 Useq.hKInit s

/-- H_K_UPD_IN (R114). -/
def execHKUpdIn (s : State) : Out := ctxUpdateHeader portK Config.engines.keccak512 Useq.hKUpdIn s

/-- H_K_UPD_H1 (R115). -/
def execHKUpdH1 (s : State) : Out := ctxUpdateH1 portK Config.engines.keccak512 Useq.hKUpdH1 s

/-- H_K_FIN (R116). -/
def execHKFin (s : State) : Out := ctxFinalize portK Config.engines.keccak512 Useq.hKFin s

/-- H_G_INIT (R117). -/
def execHGInit (s : State) : Out := ctxInit portG Config.engines.groestl512 Useq.hGInit s

/-- H_G_UPD_IN (R118). -/
def execHGUpdIn (s : State) : Out := ctxUpdateHeader portG Config.engines.groestl512 Useq.hGUpdIn s

/-- H_G_UPD_H1 (R119). -/
def execHGUpdH1 (s : State) : Out := ctxUpdateH1 portG Config.engines.groestl512 Useq.hGUpdH1 s

/-- H_G_FIN (R120). -/
def execHGFin (s : State) : Out := ctxFinalize portG Config.engines.groestl512 Useq.hGFin s

/-- H_B_INIT (R121). -/
def execHBInit (s : State) : Out := ctxInit portB Config.engines.blake512 Useq.hBInit s

/-- H_B_UPD_IN (R122). -/
def execHBUpdIn (s : State) : Out := ctxUpdateHeader portB Config.engines.blake512 Useq.hBUpdIn s

/-- H_B_UPD_H1 (R123). -/
def execHBUpdH1 (s : State) : Out := ctxUpdateH1 portB Config.engines.blake512 Useq.hBUpdH1 s

/-- H_B_FIN (R124). -/
def execHBFin (s : State) : Out := ctxFinalize portB Config.engines.blake512 Useq.hBFin s

/-- The value of H2 for a header: `Words(SHA256.hash(input ‖ H1))` (R110). -/
def chainedDigest (E : Engines) (input : Bytes) : Vector Word 8 :=
  words8 (E.sha256 (input ++ (E.hefty1 input).toList))

/-- The digest of one context engine: two separate updates, the header and then H1 (R110, R128). -/
def auxDigest {κ : Type} (C : ContextEngine κ) (input h1 : Bytes) : Vector Word 16 :=
  words16 (C.finalize (C.update (C.update C.init input) h1))

end Sys2Proof.Machine
end

