-- ==== Sys2Proof/Machine/Combiner.lean ====
section
/-! DEFINITION. The bit-interleave combiner (spec/41_combiner.md): the closed form (R141), the bit-serial reference
form (R142), the per-word mux form (R144), and micro-operation H_COMBINE (R140). -/

namespace Sys2Proof.Machine

/-- The four sources in SRC_ORDER (spec/00_scope.md R8, R141). -/
structure Sources where
  h2 : Vector Word 8
  aux1 : Vector Word 16
  aux2 : Vector Word 16
  aux3 : Vector Word 16
deriving DecidableEq, Repr

/-- Word `i` of source `k`; the combiner asks only for words 7 and 6 (R145). -/
def sourceWord (S : Sources) (k : Nat) (i : Fin 8) : Word :=
  match k with
  | 0 => S.h2[i.val]
  | 1 => S.aux1[i.val]
  | 2 => S.aux2[i.val]
  | _ => S.aux3[i.val]

/-- The source bit at output position `p`, 0 = most significant (R141, R12). -/
def sourceBit (S : Sources) (p : Nat) : Bool :=
  (sourceWord S (p % 4) (if p / 4 < 32 then 7 else 6)).getLsbD (31 - p / 4 % 32)

/-- `Combine`, closed form: bit `31 - (p mod 32)` of word `7 - (p div 32)` is the source bit at `p` (R141). -/
def combine (S : Sources) : Vector Word 8 :=
  Vector.ofFn fun w => ofBits 32 fun y => sourceBit S (32 * (7 - w.val) + (31 - y))

/-- One append: the word that bit count `b` names is shifted left by one and the bit is ORed in (R142, R148). -/
def pushBit (a : Vector Word 8 × Nat) (bit : Bool) : Vector Word 8 × Nat :=
  let w := (255 - a.2) / 32
  (a.1.set! w (shl32 a.1[w]! 1 ||| (if bit then 1 else 0)), a.2 + 1)

/-- The appends for one word index: bits 31 down to 0, the four sources at each (R142). -/
def pushWord (S : Sources) (a : Vector Word 8 × Nat) (i : Fin 8) : Vector Word 8 × Nat :=
  (List.range 32).foldl (fun a j =>
    [0, 1, 2, 3].foldl (fun a k => pushBit a ((sourceWord S k i).getLsbD (31 - j))) a) a

/-- The bit-serial reference algorithm: the accumulator and the bit count at its end (R142). -/
def combineSerial (S : Sources) : Vector Word 8 × Nat :=
  [7, 6].foldl (pushWord S) (Vector.replicate 8 0, 0)

/-- The per-word mux form (R144): bit `4t + (3 - k)` of output word `w` is bit `B + t` of word `i` of source `k`. -/
def combineMux (S : Sources) : Vector Word 8 :=
  Vector.ofFn fun w => ofBits 32 fun y =>
    (sourceWord S (3 - y % 4) (if 4 ≤ w.val then 7 else 6)).getLsbD (8 * (w.val % 4) + y / 4)

/-- The sources as read (R140). -/
def State.sources (s : State) : Sources := ⟨s.h2Value, s.aux1Value, s.aux2Value, s.aux3Value⟩

/-- H_COMBINE (R140). OUT takes the closed form; ACC and `b` are left as the bit-serial form leaves them
(spec/10_state.md R38; log 24). -/
def execHCombine (s : State) : Out :=
  .next (advance Useq.hCombine
    { s with
      out := combine s.sources
      outV := true
      acc := (combineSerial s.sources).1
      bitCount := BitVec.ofNat 9 (combineSerial s.sources).2 })

/-- The four sources the chain computes for a header (spec/40_hashchain.md R110, R127). -/
def chainSources (E : Engines) (input : Bytes) : Sources where
  h2 := chainedDigest E input
  aux1 := auxDigest E.keccak512 input (E.hefty1 input).toList
  aux2 := auxDigest E.groestl512 input (E.hefty1 input).toList
  aux3 := auxDigest E.blake512 input (E.hefty1 input).toList

/-- The value `HASH` leaves in OUT, as a function of the header alone (spec/40_hashchain.md R110). -/
def powHash (E : Engines) (input : Bytes) : Vector Word 8 := combine (chainSources E input)

/-- OUT as the 32-byte result the host takes (spec/20_memory.md R65, spec/30_encoding.md R100). -/
def hashBytes (x : Vector Word 8) : Vector Byte 32 := bytesOf Config.wordByteOrder x

/-- OUT as a 256-bit number: word `w` weighs `2^(32 w)`, so position 0 is the most significant bit (R147). -/
def hashValue (x : Vector Word 8) : Nat := x.toList.foldr (fun w n => w.toNat + 2 ^ 32 * n) 0

end Sys2Proof.Machine
end

