-- ==== Sys2Proof/Machine/Command.lean ====
section
/-! DEFINITION. The meanings of the four command words: acceptance by spec/30_encoding.md R94. What a command does
after that is its micro-operations' (spec/40_hashchain.md R110, spec/42_maskderiver.md R160, spec/43_bitreverse.md
R180). -/

namespace Sys2Proof.Machine

/-- The length check of `HASH`, before any flag is cleared (R94, spec/60_exceptions.md R191). -/
def legalLen (len : BitVec 7) : Bool := len = Config.lenA || len = Config.lenB

/-- `HASH` accepted: the length fault, or the nine flags cleared and H_HEFTY next (R94). -/
def beginHash (len : BitVec 7) (s : State) : State :=
  if legalLen len then startCommand Useq.hHefty (clearHashFlags s)
  else raiseFault .errLen (cmdWord len Op.hash) s

/-- `HASH` (R110, R94). -/
def execHash (len : BitVec 7) (s : State) : Out :=
  acceptCommand (cmdWord len Op.hash) (beginHash len) s

/-- `DERIVE_MASKS` (R160, R94). -/
def execDeriveMasks (len : BitVec 7) (s : State) : Out :=
  acceptCommand (cmdWord len Op.deriveMasks) (fun t => startCommand Useq.mTbits (clearMaskFlags t)) s

/-- `BITREV32` (R180, R94). -/
def execBitrev32 (len : BitVec 7) (s : State) : Out :=
  acceptCommand (cmdWord len Op.bitrev32) (fun t => startCommand Useq.rRev (clearRevFlag t)) s

/-- The reserved command code: ErrOp (R94, spec/60_exceptions.md R192). -/
def execReservedOp0 (len : BitVec 7) (s : State) : Out :=
  acceptCommand (cmdWord len Op.reserved) (raiseFault .errOp (cmdWord len Op.reserved)) s

end Sys2Proof.Machine
end

