-- ==== Sys2Proof/Machine/BitReverse.lean ====
section
/-! DEFINITION. The 32-bit bit reversal (spec/43_bitreverse.md) and micro-operation R_REV. -/

namespace Sys2Proof.Machine

/-- `bitrev32`: bit `i` of the result is bit `31 - i` of `w` (R181). -/
def bitrev32 (w : Word) : Word := ofBits 32 fun i => w.getLsbD (31 - i)

/-- One stage of the divide-and-conquer network: the groups picked out by `m` change places with their neighbours,
`n` bits away (R182). -/
def swapStage (m : Word) (n : Fin 32) (w : Word) : Word :=
  (shr32 w n &&& m) ||| shl32 (w &&& m) n

/-- The five stages of R182 in the document's order: adjacent bits, pairs, nibbles, bytes, half-words. -/
def bitrevNetwork (w : Word) : Word :=
  swapStage 0x0000FFFF 16 (swapStage 0x00FF00FF 8 (swapStage 0x0F0F0F0F 4
    (swapStage 0x33333333 2 (swapStage 0x55555555 1 w))))

/-- R_REV (R180). -/
def execRRev (s : State) : Out :=
  .next (advance Useq.rRev { s with brout := bitrev32 s.brinValue, brV := true })

end Sys2Proof.Machine
end

