-- ==== Sys2Proof/Machine/MaskDeriver.lean ====
section
/-! DEFINITION. The difficulty-to-mask converter (spec/42_maskderiver.md): DeriveTbits, RawMask, and micro-operations
M_TBITS and M_MASKS. -/

namespace Sys2Proof.Machine

/-- `DeriveTbits` with TBITS_BASE, DIFF_FORMAT and LOG2ROUND as parameters (spec/00_scope.md R9): the floor on every
pattern that is not positive finite (R163), else the clamped sum (R162). -/
def deriveTbitsWith (base : Int) (F : FloatFormat) (log2r : BitVec 64 → Int) (d : BitVec 64) : Nat :=
  if positiveFiniteIn F d then (max (base + log2r d) Config.tbitsFloor).toNat else Config.tbitsFloor

/-- `DeriveTbits` at the values the spec takes for the parameters (R162, R163). -/
def deriveTbits (d : BitVec 64) : Nat := deriveTbitsWith Config.tbitsBase Config.diffFormat Config.log2Round d

/-- The clamped shift count of a mask slot with offset `o` (R166). -/
def maskWidth (tbits o : Nat) : Nat := min ((tbits + o) / 4) Config.shiftMax

/-- The shift count as a count `shl32` takes (R14, R166). -/
def maskShift (tbits o : Nat) : Fin 32 := ⟨maskWidth tbits o, by unfold maskWidth Config.shiftMax; omega⟩

/-- `RawMask(tbits, s)` (R166). -/
def rawMask (tbits : Nat) (s : Fin 4) : Word := shl32 1 (maskShift tbits Config.offsets[s.val]) - 1

/-- The four masks in slot order (R165, R167). -/
def deriveMasks (tbits : Nat) : Vector Word 4 := Vector.ofFn fun s => bitrev32 (rawMask tbits s)

/-- M_TBITS (R161). TBITS holds the clamped value in 11 bits (spec/10_state.md R29). -/
def execMTbits (s : State) : Out :=
  .next (advance Useq.mTbits { s with tbits := BitVec.ofNat 11 (deriveTbits s.diffValue), tbitsV := true })

/-- M_MASKS: the four writes are one step (R165). -/
def execMMasks (s : State) : Out :=
  .next (advance Useq.mMasks { s with mask := deriveMasks s.tbitsValue.toNat, maskV := true })

end Sys2Proof.Machine
end

