-- ==== Sys2Proof/Machine/Dispatch.lean ====
section
/-! DEFINITION. The meaning of each instruction, one arm a constructor. A meaning does not look at SEQ; which
micro-operation runs is the sequencer's (log 26). -/

namespace Sys2Proof.Machine

def exec (i : Instr) (s : State) : Host.Outcome State Fault Refusal :=
  match i with
  | .hash len => Sys2Proof.Machine.execHash len s
  | .deriveMasks len => Sys2Proof.Machine.execDeriveMasks len s
  | .bitrev32 len => Sys2Proof.Machine.execBitrev32 len s
  | .reservedOp0 len => Sys2Proof.Machine.execReservedOp0 len s
  | .hHefty => Sys2Proof.Machine.execHHefty s
  | .hSha => Sys2Proof.Machine.execHSha s
  | .hKInit => Sys2Proof.Machine.execHKInit s
  | .hKUpdIn => Sys2Proof.Machine.execHKUpdIn s
  | .hKUpdH1 => Sys2Proof.Machine.execHKUpdH1 s
  | .hKFin => Sys2Proof.Machine.execHKFin s
  | .hGInit => Sys2Proof.Machine.execHGInit s
  | .hGUpdIn => Sys2Proof.Machine.execHGUpdIn s
  | .hGUpdH1 => Sys2Proof.Machine.execHGUpdH1 s
  | .hGFin => Sys2Proof.Machine.execHGFin s
  | .hBInit => Sys2Proof.Machine.execHBInit s
  | .hBUpdIn => Sys2Proof.Machine.execHBUpdIn s
  | .hBUpdH1 => Sys2Proof.Machine.execHBUpdH1 s
  | .hBFin => Sys2Proof.Machine.execHBFin s
  | .hCombine => Sys2Proof.Machine.execHCombine s
  | .mTbits => Sys2Proof.Machine.execMTbits s
  | .mMasks => Sys2Proof.Machine.execMMasks s
  | .rRev => Sys2Proof.Machine.execRRev s

end Sys2Proof.Machine
end

