-- ==== Sys2Proof/Machine/HostPort.lean ====
section
/-! DEFINITION. What the host does to the block (spec/10_state.md R41, spec/20_memory.md R62, spec/30_encoding.md R99)
and the document's entry points as lists of host actions (R100). -/

namespace Sys2Proof.Machine

/-- `Nat` values of a register's words, index 0 first. -/
def wordValues {n w : Nat} (x : Vector (BitVec w) n) : List Nat := x.toList.map BitVec.toNat

/-- The host may take the value of the register that flag `f` guards: BUSY = 0 and the flag is 1 (R41,
spec/70_reset_and_hazards.md R225). -/
def State.readable (s : State) (f : Flag) : Bool := !s.busy && s.flag f

/-- The value the host reads (R41). Inputs, control registers and flags may be read at any time. A byte of HDR that
holds no value stops the read (R40; log 3). DIFF or BRIN that holds none, and a result the host may not take, has no value
in the spec (R40, R207, R225): the read answers a free value (logs 1 and 14). -/
def readReg (s : State) : HostReg → Except Fault (List Nat)
  | .hdr a =>
    if Config.hdrSize ≤ a then .error .noSuchAddress
    else match s.hdr.readByte a with
      | some v => .ok [v.toNat]
      | none => .error .headerNoValue
  | .diff => .ok [s.diffValue.toNat]
  | .brin => .ok [s.brinValue.toNat]
  | .opr => .ok [s.opr.toNat]
  | .lenr => .ok [s.lenr.toNat]
  | .seq => .ok [s.seq.toNat]
  | .status => .ok [s.status.toNat]
  | .faultInfo => .ok [s.faultInfo.toNat]
  | .cmdReady => .ok [s.cmdReady.toNat]
  | .valid f => .ok [(s.flag f).toNat]
  | .h1 => .ok (wordValues (valueOf (s.readable .h1) s.h1 s.noValue.h1))
  | .h2 => .ok (wordValues (valueOf (s.readable .h2) s.h2 s.noValue.h2))
  | .aux1 => .ok (wordValues (valueOf (s.readable .aux1) s.aux1 s.noValue.aux1))
  | .aux2 => .ok (wordValues (valueOf (s.readable .aux2) s.aux2 s.noValue.aux2))
  | .aux3 => .ok (wordValues (valueOf (s.readable .aux3) s.aux3 s.noValue.aux3))
  | .out => .ok (wordValues (valueOf (s.readable .out) s.out s.noValue.out))
  | .tbits => .ok [(valueOf (s.readable .tbits) s.tbits s.noValue.tbits).toNat]
  | .mask => .ok (wordValues (valueOf (s.readable .mask) s.mask s.noValue.mask))
  | .brout => .ok [(valueOf (s.readable .br) s.brout s.noValue.brout).toNat]

/-- An input may be written only while BUSY = 0 (R41, spec/70_reset_and_hazards.md R223, R224). -/
def hostWrite (s : State) (t : State) : Out :=
  if s.busy then .fault .hostWriteWhileBusy else .next t

/-- A host read, recorded in `reads`; it changes nothing else (spec/20_memory.md R68). -/
def hostRead (r : HostReg) (s : State) : Out :=
  match readReg s r with
  | .ok v => .next { s with reads := s.reads ++ [⟨r, v⟩] }
  | .error f => .fault f

/-- One host action that is not a wait (R99). A header write that is ill formed and made while BUSY = 1 breaks two duties,
and the spec names no order of them: the model looks at the form first (DESIGN CHOICE, log 15). -/
def hostAct (a : HostAct) (s : State) : Out :=
  match a with
  | .wrHdr addr bytes =>
    if a.wellFormed then hostWrite s { s with hdr := s.hdr.writeBytes addr bytes }
    else .fault .noSuchAddress
  | .wrDiff x => hostWrite s { s with diff := x, diffSet := true }
  | .wrBrin w => hostWrite s { s with brin := w, brinSet := true }
  | .present c => .next { s with cmd := some c }
  | .withdraw => .next { s with cmd := none }
  | .read r => hostRead r s
  | .rst => .next (resetBlock s)
  | .hold | .wait | .tick => .next s

/-- `HASH n`, `DERIVE_MASKS`, `BITREV32`, `CMDRAW c`: present a word until it is accepted (R99). -/
def issue (c : BitVec 9) : List HostAct := [.present c, .hold]

/-- The pseudo-instruction `hash(h)` (R100). -/
def hashScript (h : Bytes) : List HostAct :=
  [.wrHdr 0 h] ++ issue (cmdWord (BitVec.ofNat 7 h.length) Op.hash) ++ [.wait, .read .out]

/-- The pseudo-instruction `compute_chain(h)` (R100). -/
def computeChainScript (h : Bytes) : List HostAct :=
  hashScript h ++ [.read .h2, .read .aux1, .read .aux2, .read .aux3]

/-- The pseudo-instruction `derive_masks(d)` (R100). -/
def deriveMasksScript (d : BitVec 64) : List HostAct :=
  [.wrDiff d] ++ issue (cmdWord 0 Op.deriveMasks) ++ [.wait, .read .tbits, .read .mask]

/-- The pseudo-instruction `bit_reverse_32(w)` (R100). -/
def bitReverseScript (w : Word) : List HostAct :=
  [.wrBrin w] ++ issue (cmdWord 0 Op.bitrev32) ++ [.wait, .read .brout]

end Sys2Proof.Machine
end

