-- ==== Sys2Proof/Machine/Sequencer.lean ====
section
/-! DEFINITION. Whose move it is, and what the sequencer runs: the command on the port at IDLE, the micro-operation SEQ
names while a command runs, nothing in HALT (spec/10_state.md R30, R31, R33, spec/30_encoding.md R94, R97). -/

namespace Sys2Proof.Machine

/-- What the next step is: an instruction to run in a state, or a step that runs none. -/
inductive Move where
  | run (i : Instr) (s : State)
  | settled (o : Out)

/-- The sequencer's move. At IDLE it takes the presented word off the port and runs it (R33, R94), and with none
presented it waits. In HALT nothing changes (spec/60_exceptions.md R198; log 16). Otherwise it runs row SEQ of R97;
an unused code is refused (R93). -/
def sequencerMove (s : State) : Move :=
  if s.seq = Useq.idle then
    match s.cmd with
    | some c => .run (decodeCmd c) { s with cmd := none }
    | none => .settled (.next s)
  else if s.seq = Useq.halt then .settled (.next s)
  else match decodeUseq s.seq with
    | .ok i => .run i s
    | .error _ => .settled (.refused .unusedSeqCode)

/-- The next step (log 11). The host acts when its next action is no wait. `tick` gives the sequencer one move; `hold`
gives it moves until the presented word is taken, or never can be because of HALT (spec/95 P3; log 12); `wait` gives it
moves until BUSY = 0; a host with no action left lets it move for ever. -/
def fetch (s : State) : Move :=
  match s.host with
  | [] => sequencerMove s
  | .tick :: r => sequencerMove { s with host := r }
  | .hold :: r =>
    if s.cmd.isSome && s.seq ≠ Useq.halt then sequencerMove s else .settled (.next { s with host := r })
  | .wait :: r => if s.busy then sequencerMove s else .settled (.next { s with host := r })
  | a :: r => .settled (hostAct a { s with host := r })

/-- The header operand of micro-operation `i`, if it reads one, made readable: LENR a legal length, and an unwritten
header byte written 0 (log 20). -/
def withOperands (i : Instr) (s : State) : State :=
  let header : State :=
    { s with
      lenr := if s.lenr = Config.lenA then s.lenr else Config.lenB
      hdr := Memory.writeBytes [] 0
        ((List.range Config.hdrSize).map fun a => (s.hdr.readByte a).getD 0) }
  match i with
  | .hHefty | .hSha | .hKUpdIn | .hGUpdIn | .hBUpdIn => header
  | .hash _ | .deriveMasks _ | .bitrev32 _ | .reservedOp0 _ | .hKInit | .hGInit | .hBInit | .hKUpdH1 | .hGUpdH1
  | .hBUpdH1 | .hKFin | .hGFin | .hBFin | .hCombine | .mTbits | .mMasks | .rRev => s

/-- The state whose very next step runs the instruction of code `c`: a command word on the port at IDLE, or SEQ at the
micro-operation with BUSY = 1 and its header operand there, and the sequencer's move next (log 20). -/
def placeCode (c : Code) (s : State) : State :=
  match c with
  | .cmd w => { s with cmd := some w, seq := Useq.idle, host := .tick :: s.host }
  | .useq u =>
    let t : State := { s with seq := u, status := withBusyDone s.status true false, host := .tick :: s.host }
    match decodeUseq u with
    | .ok i => withOperands i t
    | .error _ => t

end Sys2Proof.Machine
end

