-- ==== Sys2Proof/Machine/Step.lean ====
section
/-! DEFINITION. One step of the machine, and the state whose next step runs a given instruction word. -/

namespace Sys2Proof.Machine

/-- One step: the instruction the sequencer fetches, or the step that runs none. -/
def step (s : State) : Host.Outcome State Fault Refusal :=
  match fetch s with
  | .run i t => exec i t
  | .settled o => o

/-- `s` with the instruction of word `w` where the next step fetches it (log 20); a word that is no code changes
nothing. -/
def State.withFetchWord (s : State) (nbits w : Nat) : State :=
  match tableCode nbits w with
  | .ok c => placeCode c s
  | .error _ => s

end Sys2Proof.Machine
end

