-- ==== Sys2Proof/Machine/Platform.lean ====
section
/-! DEFINITION. A platform of `N_INST` independent instances (spec/10_state.md R45, spec/60_exceptions.md R203): each
has all of the state for itself, and a platform step is a step of one of them. `N_INST` stays open: it is an argument
(spec/92_eei_decisions.md D15; log 22). -/

namespace Sys2Proof.Machine

/-- The instances, at least one of them, each with its own copy of every piece of state (R45). -/
structure Platform (nInst : Nat) where
  instances : Vector State nInst
  atLeastOne : 1 ≤ nInst
deriving DecidableEq, Repr

/-- A platform after reset: each instance at IDLE (R203), an instance of its own (log 22). -/
def Platform.reset {nInst : Nat} (h : 1 ≤ nInst) : Platform nInst :=
  ⟨Vector.ofFn fun k => { State.reset with chip := k.val }, h⟩

/-- The platform with instance `k` in the state `s`. -/
def Platform.put {nInst : Nat} (P : Platform nInst) (k : Fin nInst) (s : State) : Platform nInst :=
  { P with instances := P.instances.set k s }

/-- Instance `k` takes a step. -/
def Platform.step {nInst : Nat} (k : Fin nInst) (P : Platform nInst) :
    Host.Outcome (Platform nInst) Fault Refusal :=
  match Machine.step P.instances[k] with
  | .next t => .next (P.put k t)
  | .fault f => .fault f
  | .refused r => .refused r

end Sys2Proof.Machine
end

