-- ==== Sys2Proof/Safety.lean ====
section
/-! DEFINITION. The terms the claims use: when a run has ended (spec/70_reset_and_hazards.md R232), whose turn it is,
the invariants of the control state and of the results, and the real value of a binary64 pattern. -/

namespace Sys2Proof.Machine

/-- A run has ended well (R232): the host has no further action and presents nothing, SEQ = IDLE, no error bit. -/
def State.endedWell (s : State) : Prop :=
  s.host = [] ∧ s.cmd = none ∧ s.seq = Useq.idle ∧ s.busy = false ∧ s.errLen = false ∧ s.errOp = false

/-- A run has ended badly (R232). -/
def State.endedBadly (s : State) : Prop := s.seq = Useq.halt

/-- The values spec/10_state.md R42 states for reset, with no value in every register it leaves unspecified that a flag
guards or the host writes. The numbers behind the flags are the model's (log 2) and are not said. -/
def State.hasResetValues (t : State) : Prop :=
  t.seq = 0 ∧ t.status = 0x00 ∧ t.faultInfo = 0 ∧ t.opr = 0 ∧ t.lenr = 0 ∧ (∀ f, t.flag f = false) ∧
  (∀ a, t.hdr.readByte a = none) ∧ t.diffSet = false ∧ t.brinSet = false ∧ t.cmdReady = true

/-- The streaming law of an engine (spec/20_memory.md R76): a property a claim may take as its premise, never one the
model assumes. -/
def streaming {κ : Type} (C : ContextEngine κ) : Prop :=
  ∀ c a b, C.update (C.update c a) b = C.update c (a ++ b)

/-- The state in which the sequencer moves next, if it is its turn: the host has no action left, or its next action
lets the sequencer move (log 11). -/
def State.turn (s : State) : Option State :=
  match s.host with
  | [] => some s
  | .tick :: r => some { s with host := r }
  | .hold :: _ => if s.cmd = none ∨ s.seq = Useq.halt then none else some s
  | .wait :: _ => if s.busy then some s else none
  | _ => none

/-- The micro-operations: every instruction that is no command word. -/
def isMicro : Instr → Bool
  | .hash _ | .deriveMasks _ | .bitrev32 _ | .reservedOp0 _ => false
  | .hHefty | .hSha | .hKInit | .hKUpdIn | .hKUpdH1 | .hKFin | .hGInit | .hGUpdIn | .hGUpdH1 | .hGFin
  | .hBInit | .hBUpdIn | .hBUpdH1 | .hBFin | .hCombine | .mTbits | .mMasks | .rRev => true

/-- The command an instruction belongs to, as its OP code (spec/30_encoding.md R91, R97). -/
def commandOf : Instr → BitVec 2
  | .reservedOp0 _ => Op.reserved
  | .hash _ | .hHefty | .hSha | .hKInit | .hKUpdIn | .hKUpdH1 | .hKFin | .hGInit | .hGUpdIn | .hGUpdH1 | .hGFin
  | .hBInit | .hBUpdIn | .hBUpdH1 | .hBFin | .hCombine => Op.hash
  | .deriveMasks _ | .mTbits | .mMasks => Op.deriveMasks
  | .bitrev32 _ | .rRev => Op.bitrev32

/-- The header operand is there: LENR is inside HDR and every byte below it has been written
(spec/20_memory.md R61). -/
def State.headerHolds (s : State) : Prop := s.lenr.toNat ≤ Config.hdrSize ∧ ∃ m, s.header = some m

/-- The header operand is there, if the instruction reads it (R61). -/
def headerHoldsFor (i : Instr) (s : State) : Prop :=
  match i with
  | .hHefty | .hSha | .hKUpdIn | .hGUpdIn | .hBUpdIn => s.headerHolds
  | .hash _ | .deriveMasks _ | .bitrev32 _ | .reservedOp0 _ | .hKInit | .hGInit | .hBInit | .hKUpdH1 | .hGUpdH1
  | .hBUpdH1 | .hKFin | .hGFin | .hBFin | .hCombine | .mTbits | .mMasks | .rRev => True

/-- If HASH is in progress, its header has been written: the host's part of spec/70_reset_and_hazards.md R222. -/
def State.inputsHold (s : State) : Prop :=
  1 ≤ s.seq.toNat → s.seq.toNat ≤ 15 → ∃ m, s.header = some m

/-- The control invariant: what SEQ, STATUS, the latches and the valid flags say of one another in every state a run
reaches. -/
structure State.Control (s : State) : Prop where
  /-- HDR is in canonical form. -/
  hdrWf : s.hdr.wf
  /-- SEQ never holds an unused code (spec/30_encoding.md R93). -/
  seqUsed : s.seq.toNat ≤ 18 ∨ s.seq = Useq.halt
  /-- IDLE: nothing set, or DONE alone (spec/10_state.md R32). -/
  statusIdle : s.seq = Useq.idle → s.status = 0x00 ∨ s.status = 0x02
  /-- A command in progress: BUSY alone (R32). -/
  statusBusy : s.seq ≠ Useq.idle → s.seq ≠ Useq.halt → s.status = 0x01
  /-- HALT: one error bit alone, and what FAULTINFO then says (R32, R34). -/
  statusHalt : s.seq = Useq.halt →
    (s.status = 0x04 ∧ cmdOp s.faultInfo = Op.hash ∧ cmdLen s.faultInfo ≠ 80 ∧ cmdLen s.faultInfo ≠ 84) ∨
    (s.status = 0x08 ∧ cmdOp s.faultInfo = Op.reserved)
  /-- FAULTINFO is written by a fault only (R34). -/
  noFault : s.seq ≠ Useq.halt → s.faultInfo = 0
  /-- The latches hold the command that runs, and HASH runs with a legal length only (R33, spec/30_encoding.md R94). -/
  latchHash : 1 ≤ s.seq.toNat → s.seq.toNat ≤ 15 → s.opr = Op.hash ∧ (s.lenr = 80 ∨ s.lenr = 84)
  latchMask : s.seq = Useq.mTbits ∨ s.seq = Useq.mMasks → s.opr = Op.deriveMasks
  latchRev : s.seq = Useq.rRev → s.opr = Op.bitrev32
  /-- While HASH runs, exactly the flags of the micro-operations done so far are set (R35). -/
  flagsHash : 1 ≤ s.seq.toNat → s.seq.toNat ≤ 15 →
    (s.h1V = true ↔ 2 ≤ s.seq.toNat) ∧ (s.h2V = true ↔ 3 ≤ s.seq.toNat) ∧
    (s.aux1V = true ↔ 7 ≤ s.seq.toNat) ∧ (s.aux2V = true ↔ 11 ≤ s.seq.toNat) ∧
    (s.aux3V = true ↔ 15 ≤ s.seq.toNat) ∧ s.outV = false
  /-- A context holds a value only between its `init` and its `finalize` (R35, R37). -/
  flagsCtx : (s.kcV = true ↔ 4 ≤ s.seq.toNat ∧ s.seq.toNat ≤ 6) ∧
    (s.gcV = true ↔ 8 ≤ s.seq.toNat ∧ s.seq.toNat ≤ 10) ∧
    (s.bcV = true ↔ 12 ≤ s.seq.toNat ∧ s.seq.toNat ≤ 14)
  flagsMask : (s.seq = Useq.mTbits → s.tbitsV = false ∧ s.maskV = false) ∧
    (s.seq = Useq.mMasks → s.tbitsV = true ∧ s.maskV = false)
  flagsRev : s.seq = Useq.rRev → s.brV = false
  /-- Every message the block sends has a length the engines are total on (spec/20_memory.md R76, R78). -/
  callsWf : ∀ c ∈ s.engineCalls, c.wellFormed = true

/-- What the registers of the HASH command hold for the header `m`, by how far the command has come. -/
def State.chainHolds (E : Engines) (s : State) (m : Bytes) : Prop :=
  (s.h1V = true → s.h1 = E.hefty1 m) ∧
  (s.h2V = true → s.h2 = chainedDigest E m) ∧
  (s.aux1V = true → s.aux1 = auxDigest E.keccak512 m (E.hefty1 m).toList) ∧
  (s.aux2V = true → s.aux2 = auxDigest E.groestl512 m (E.hefty1 m).toList) ∧
  (s.aux3V = true → s.aux3 = auxDigest E.blake512 m (E.hefty1 m).toList) ∧
  (s.outV = true → s.out = powHash E m)

/-- What an engine context holds by how far its chain has come: after `init`, after the header, after H1. -/
def ctxHolds {κ : Type} (C : ContextEngine κ) (m h1 : Bytes) (first : Nat) (seq : Nat) (c : κ) : Prop :=
  (seq = first → c = C.init) ∧
  (seq = first + 1 → c = C.update C.init m) ∧
  (seq = first + 2 → c = C.update (C.update C.init m) h1)

/-- The result invariant: whatever valid flag is set, the register it guards holds the complete correct value of the
document's functions for one input (spec/60_exceptions.md R193: "no partial results"). -/
structure State.Results (s : State) : Prop where
  /-- While HASH runs past H_HEFTY, the registers and contexts hold the chain of the header in HDR. -/
  running : 2 ≤ s.seq.toNat → s.seq.toNat ≤ 15 → ∃ m, s.header = some m ∧ s.chainHolds Config.engines m ∧
    ctxHolds Config.engines.keccak512 m (Config.engines.hefty1 m).toList 4 s.seq.toNat s.kc ∧
    ctxHolds Config.engines.groestl512 m (Config.engines.hefty1 m).toList 8 s.seq.toNat s.gc ∧
    ctxHolds Config.engines.blake512 m (Config.engines.hefty1 m).toList 12 s.seq.toNat s.bc
  /-- Outside HASH, the HASH registers that are valid belong to one header of a legal length. -/
  hashed : s.seq = Useq.idle ∨ 16 ≤ s.seq.toNat →
    ∃ m : Bytes, (m.length = 80 ∨ m.length = 84) ∧ s.chainHolds Config.engines m
  /-- A valid TBITS is the bit budget of some difficulty. -/
  budget : s.tbitsV = true → ∃ d, s.tbits.toNat = deriveTbits d
  /-- Valid masks are those of a valid TBITS. -/
  masks : s.maskV = true → s.tbitsV = true ∧ s.mask = deriveMasks s.tbits.toNat

/-- The real value of a finite pattern without its sign (spec/42_maskderiver.md R171). -/
def magnitude (d : BitVec 64) : ℚ :=
  if 1 ≤ expOf d then (2 ^ 52 + fracOf d : ℚ) * 2 ^ ((expOf d : ℤ) - 1075)
  else (fracOf d : ℚ) * 2 ^ (-1074 : ℤ)

/-- The place of a micro-operation of the hash chain in the partial order of spec/30_encoding.md R98: its engine
(0 HEFTY1, 1 SHA256, 2 to 4 the context engines) and its stage there. -/
def stageOf : Instr → Option (Nat × Nat)
  | .hHefty => some (0, 0)
  | .hSha => some (1, 1)
  | .hKInit => some (2, 0)
  | .hKUpdIn => some (2, 1)
  | .hKUpdH1 => some (2, 2)
  | .hKFin => some (2, 3)
  | .hGInit => some (3, 0)
  | .hGUpdIn => some (3, 1)
  | .hGUpdH1 => some (3, 2)
  | .hGFin => some (3, 3)
  | .hBInit => some (4, 0)
  | .hBUpdIn => some (4, 1)
  | .hBUpdH1 => some (4, 2)
  | .hBFin => some (4, 3)
  | .hash _ | .deriveMasks _ | .bitrev32 _ | .reservedOp0 _ | .hCombine | .mTbits | .mMasks | .rRev => none

/-- Neither of two micro-operations of HASH has to come before the other (R98): they belong to different engines, and
where one is H_HEFTY the other does not read H1. -/
def independent (i j : Instr) : Prop :=
  match stageOf i, stageOf j with
  | some (e, a), some (f, b) => e ≠ f ∧ (e = 0 → 2 ≤ f ∧ b ≤ 1) ∧ (f = 0 → 2 ≤ e ∧ a ≤ 1)
  | _, _ => False

/-- Two states that differ at most in SEQ and in the order of the engine calls (R98). -/
def sameValues (s t : State) : Prop :=
  { s with seq := 0, engineCalls := [] } = { t with seq := 0, engineCalls := [] } ∧
    s.engineCalls.Perm t.engineCalls

end Sys2Proof.Machine
end

