-- ==== Sys2Proof/Certificates/Slice0/Obligations.lean ====
section
/-! DEFINITION. The statements for the provers, each formalising a rule of spec/ or derived from sections of it.
A statement of an instruction's result is an equation between states, so it is the instruction's frame as well. -/

open Sys2Proof Sys2Proof.Machine

/-! ## Encoding and the step -/

/-- R91, R97, R101: words written out from the tables decode to the instructions they stand for. -/
def Obligations.TableWordsDecode : Prop :=
  decodeTableWord 16 0b101010001 = some (.hash 84) ∧
  decodeTableWord 16 0b101001101 = some (.hash 83) ∧
  decodeTableWord 16 0b101010010 = some (.deriveMasks 84) ∧
  decodeTableWord 16 0b000000011 = some (.bitrev32 0) ∧
  decodeTableWord 16 0b101010000 = some (.reservedOp0 84) ∧
  decodeTableWord 8 0b00001 = some .hHefty ∧
  decodeTableWord 8 0b01001 = some .hGUpdH1 ∧
  decodeTableWord 8 0b01111 = some .hCombine ∧
  decodeTableWord 8 0b10001 = some .mMasks ∧
  decodeTableWord 8 0b10010 = some .rRev ∧
  decodeTableWord 8 0b10011 = none

/-- R93, R101: on the words of both formats, a word decodes to an instruction exactly when that instruction encodes to
the word. Every instruction has one word and every word at most one instruction. -/
def Obligations.DecodeInvertsEncode : Prop :=
  ∀ (c : Code) (i : Instr), decode c = .ok i ↔ encode i = c

/-- R93: every command word decodes, and the unused SEQ codes 19 to 30 name no micro-operation: a step that finds one
refuses. -/
def Obligations.CommandDecodingIsTotalAndUnusedCodesRefuse : Prop :=
  (∀ c : BitVec 9, ∃ i, decode (.cmd c) = .ok i) ∧
  ∀ s t : State, s.turn = some t → 19 ≤ t.seq.toNat → t.seq.toNat ≤ 30 →
    decode (.useq t.seq) = .error .unusedCode ∧ step s = .refused .unusedSeqCode

/-- R94, R97, R30: when it is the sequencer's turn, a step is the meaning of the command on the port at IDLE (which
leaves the port) or of the micro-operation SEQ names, and no change at IDLE with no command and in HALT. Whose turn it
is follows the model's host (log 11). -/
def Obligations.StepRunsTheDecodedInstruction : Prop :=
  ∀ s t : State, s.turn = some t →
    (∀ c i, t.seq = Useq.idle → t.cmd = some c → decode (.cmd c) = .ok i →
      step s = exec i { t with cmd := none }) ∧
    (∀ i, decode (.useq t.seq) = .ok i → step s = exec i t) ∧
    (t.seq = Useq.idle → t.cmd = none → step s = .next t) ∧
    (t.seq = Useq.halt → step s = .next t)

/-- The model's host (log 11): when it is not the sequencer's turn a step is the host's next action, and a finished
`hold` or `wait` only leaves the list. -/
def Obligations.StepPerformsTheHostAction : Prop :=
  ∀ (s : State) (a : HostAct) (r : List HostAct), s.host = a :: r → s.turn = none →
    step s = hostAct a { s with host := r } ∧
    (a = .hold ∨ a = .wait → step s = .next { s with host := r })

/-- R94: with SEQ not IDLE no command word is taken and nothing changes. -/
def Obligations.CommandIsNotTakenUnlessIdle : Prop :=
  ∀ (i : Instr) (s : State), isMicro i = false → s.seq ≠ Useq.idle → exec i s = .next s

/-! ## Commands and the hardware faults -/

/-- R94: HASH with length 80 or 84 at IDLE latches OPR and LENR, clears its nine flags, sets BUSY, clears DONE and
enters H_HEFTY. -/
def Obligations.HashOfLegalLengthStarts : Prop :=
  ∀ (len : BitVec 7) (s : State), s.seq = Useq.idle → len = 80 ∨ len = 84 →
    exec (.hash len) s = .next
      { s with
        opr := 1, lenr := len,
        h1V := false, h2V := false, aux1V := false, aux2V := false, aux3V := false,
        kcV := false, gcV := false, bcV := false, outV := false,
        status := (s.status ||| 0x01) &&& ~~~0x02, seq := 1 }

/-- R191, R193: HASH with any other length at IDLE takes the length fault, with exactly these writes. -/
def Obligations.HashOfOtherLengthTakesLengthFault : Prop :=
  ∀ (len : BitVec 7) (s : State), s.seq = Useq.idle → len ≠ 80 → len ≠ 84 →
    exec (.hash len) s = .next
      { s with
        opr := 1, lenr := len, faultInfo := len ++ (1 : BitVec 2),
        status := (s.status ||| 0x04) &&& ~~~0x03, seq := 31 }

/-- R192, R193: the reserved command code at IDLE takes the fault ErrOp, with exactly these writes. -/
def Obligations.ReservedCommandTakesOpFault : Prop :=
  ∀ (len : BitVec 7) (s : State), s.seq = Useq.idle →
    exec (.reservedOp0 len) s = .next
      { s with
        opr := 0, lenr := len, faultInfo := len ++ (0 : BitVec 2),
        status := (s.status ||| 0x08) &&& ~~~0x03, seq := 31 }

/-- R94: DERIVE_MASKS at IDLE starts with any LEN, clears its own two flags only, and enters M_TBITS. -/
def Obligations.DeriveMasksStarts : Prop :=
  ∀ (len : BitVec 7) (s : State), s.seq = Useq.idle →
    exec (.deriveMasks len) s = .next
      { s with
        opr := 2, lenr := len, tbitsV := false, maskV := false,
        status := (s.status ||| 0x01) &&& ~~~0x02, seq := 16 }

/-! ## The hash chain -/

/-- R111: H_HEFTY, SEQ code 00001, writes H1 with the digest of the header. The record of the call (log 18) is left
open here, and in the statements down to `finalize`. -/
def Obligations.HeftyWritesH1 : Prop :=
  decode (.useq 0b00001) = .ok .hHefty ∧
  ∀ (s : State) (m : Bytes), s.lenr = 80 ∨ s.lenr = 84 → s.header = some m →
    ∃ t, exec .hHefty s = .next t ∧
      t = { s with h1 := Config.engines.hefty1 m, h1V := true, seq := 2, engineCalls := t.engineCalls }

/-- R112: H_SHA, SEQ code 00010, writes H2 with the word view (little-endian, the value R64 takes for WORD_BYTE_ORDER)
of the digest of the header followed by H1. -/
def Obligations.ShaWritesH2 : Prop :=
  decode (.useq 0b00010) = .ok .hSha ∧
  ∀ (s : State) (m : Bytes), s.lenr = 80 ∨ s.lenr = 84 → s.header = some m → s.h1V = true →
    ∃ t, exec .hSha s = .next t ∧
      t = { s with
        h2 := wordsOf .little 8 (Config.engines.sha256 (m ++ s.h1.toList)), h2V := true, seq := 3,
        engineCalls := t.engineCalls }

/-- R113, R117, R121: the three `init` micro-operations, SEQ codes 00011, 00111 and 01011, write their context. -/
def Obligations.InitWritesTheContext : Prop :=
  (decode (.useq 0b00011) = .ok .hKInit ∧ decode (.useq 0b00111) = .ok .hGInit ∧
    decode (.useq 0b01011) = .ok .hBInit) ∧
  ∀ s : State,
    (∃ t, exec .hKInit s = .next t ∧
      t = { s with kc := Config.engines.keccak512.init, kcV := true, seq := 4, engineCalls := t.engineCalls }) ∧
    (∃ t, exec .hGInit s = .next t ∧
      t = { s with gc := Config.engines.groestl512.init, gcV := true, seq := 8, engineCalls := t.engineCalls }) ∧
    ∃ t, exec .hBInit s = .next t ∧
      t = { s with bc := Config.engines.blake512.init, bcV := true, seq := 12, engineCalls := t.engineCalls }

/-- R114, R118, R122: the first `update` of each engine, SEQ codes 00100, 01000 and 01100, takes the whole header in
one call. -/
def Obligations.UpdateTakesTheHeader : Prop :=
  (decode (.useq 0b00100) = .ok .hKUpdIn ∧ decode (.useq 0b01000) = .ok .hGUpdIn ∧
    decode (.useq 0b01100) = .ok .hBUpdIn) ∧
  ∀ (s : State) (m : Bytes), s.lenr = 80 ∨ s.lenr = 84 → s.header = some m →
    (s.kcV = true → ∃ t, exec .hKUpdIn s = .next t ∧
      t = { s with kc := Config.engines.keccak512.update s.kc m, seq := 5, engineCalls := t.engineCalls }) ∧
    (s.gcV = true → ∃ t, exec .hGUpdIn s = .next t ∧
      t = { s with gc := Config.engines.groestl512.update s.gc m, seq := 9, engineCalls := t.engineCalls }) ∧
    (s.bcV = true → ∃ t, exec .hBUpdIn s = .next t ∧
      t = { s with bc := Config.engines.blake512.update s.bc m, seq := 13, engineCalls := t.engineCalls })

/-- R115, R119, R123: the second, separate `update`, SEQ codes 00101, 01001 and 01101, takes exactly the bytes of
H1. -/
def Obligations.UpdateTakesH1 : Prop :=
  (decode (.useq 0b00101) = .ok .hKUpdH1 ∧ decode (.useq 0b01001) = .ok .hGUpdH1 ∧
    decode (.useq 0b01101) = .ok .hBUpdH1) ∧
  ∀ s : State, s.h1V = true →
    (s.kcV = true → ∃ t, exec .hKUpdH1 s = .next t ∧
      t = { s with
        kc := Config.engines.keccak512.update s.kc s.h1.toList, seq := 6, engineCalls := t.engineCalls }) ∧
    (s.gcV = true → ∃ t, exec .hGUpdH1 s = .next t ∧
      t = { s with
        gc := Config.engines.groestl512.update s.gc s.h1.toList, seq := 10, engineCalls := t.engineCalls }) ∧
    (s.bcV = true → ∃ t, exec .hBUpdH1 s = .next t ∧
      t = { s with
        bc := Config.engines.blake512.update s.bc s.h1.toList, seq := 14, engineCalls := t.engineCalls })

/-- R116, R120, R124: `finalize`, SEQ codes 00110, 01010 and 01110, writes the auxiliary digest of its engine (word view
little-endian as R64 takes it) and consumes the context. What bytes a consumed context register keeps is left open
(log 25). -/
def Obligations.FinalizeWritesTheDigest : Prop :=
  (decode (.useq 0b00110) = .ok .hKFin ∧ decode (.useq 0b01010) = .ok .hGFin ∧
    decode (.useq 0b01110) = .ok .hBFin) ∧
  ∀ s : State,
    (s.kcV = true → ∃ t, exec .hKFin s = .next t ∧
      t = { s with
        aux1 := wordsOf .little 16 (Config.engines.keccak512.finalize s.kc),
        aux1V := true, kc := t.kc, kcV := false, seq := 7, engineCalls := t.engineCalls }) ∧
    (s.gcV = true → ∃ t, exec .hGFin s = .next t ∧
      t = { s with
        aux2 := wordsOf .little 16 (Config.engines.groestl512.finalize s.gc),
        aux2V := true, gc := t.gc, gcV := false, seq := 11, engineCalls := t.engineCalls }) ∧
    (s.bcV = true → ∃ t, exec .hBFin s = .next t ∧
      t = { s with
        aux3 := wordsOf .little 16 (Config.engines.blake512.finalize s.bc),
        aux3V := true, bc := t.bc, bcV := false, seq := 15, engineCalls := t.engineCalls })

/-- R64, with both values of the parameter WORD_BYTE_ORDER: the number a word of the word view is. -/
def Obligations.WordViewOfBytes : Prop :=
  ∀ (n : Nat) (s : Vector Byte (4 * n)) (i : Nat), i < n →
    (wordsOf .little n s)[i]!.toNat =
      s[4 * i]!.toNat + 2 ^ 8 * s[4 * i + 1]!.toNat + 2 ^ 16 * s[4 * i + 2]!.toNat + 2 ^ 24 * s[4 * i + 3]!.toNat ∧
    (wordsOf .big n s)[i]!.toNat =
      2 ^ 24 * s[4 * i]!.toNat + 2 ^ 16 * s[4 * i + 1]!.toNat + 2 ^ 8 * s[4 * i + 2]!.toNat + s[4 * i + 3]!.toNat

/-- R65: the byte view and the word view are inverse to one another, in either byte order. -/
def Obligations.ByteViewInvertsWordView : Prop :=
  ∀ (o : ByteOrder) (n : Nat) (x : Vector Word n) (s : Vector Byte (4 * n)),
    wordsOf o n (bytesOf o x) = x ∧ bytesOf o (wordsOf o n s) = s

/-! ## The combiner -/

/-- R140: H_COMBINE, SEQ code 01111, writes OUT, sets OUT_V, ends the command. What it leaves in ACC and `b` is in
BitSerialCombinerEqualsClosedForm. -/
def Obligations.CombineWritesOutAndEndsHash : Prop :=
  decode (.useq 0b01111) = .ok .hCombine ∧
  ∀ s : State, s.h2V = true → s.aux1V = true → s.aux2V = true → s.aux3V = true →
    ∃ t, exec .hCombine s = .next t ∧
      t = { s with
        out := combine ⟨s.h2, s.aux1, s.aux2, s.aux3⟩, outV := true,
        acc := t.acc, bitCount := t.bitCount,
        status := (s.status ||| 0x02) &&& ~~~0x01, seq := 0 }

/-- R141, R12: the output bit at position `p` is the bit of source `p mod 4` at word 7 or 6 and bit
`31 - (p div 4 mod 32)`. -/
def Obligations.CombineBitProvenance : Prop :=
  ∀ (h2 : Vector Word 8) (a1 a2 a3 : Vector Word 16) (p : Nat), p < 256 →
    ((combine ⟨h2, a1, a2, a3⟩)[7 - p / 32]!).getLsbD (31 - p % 32) =
      (if p / 4 < 32 then #v[h2[7], a1[7], a2[7], a3[7]] else #v[h2[6], a1[6], a2[6], a3[6]])[p % 4]!.getLsbD
        (31 - p / 4 % 32)

/-- R142, R143: the bit-serial reference algorithm ends with `b` = 256 and the closed form's words; R38: H_COMBINE
leaves ACC and `b` so, where the spec lets a model not have them (log 24). -/
def Obligations.BitSerialCombinerEqualsClosedForm : Prop :=
  (∀ S : Sources, combineSerial S = (combine S, 256)) ∧
  ∀ s t : State, exec .hCombine s = .next t → t.acc = t.out ∧ t.bitCount = 256

/-- R144: the per-word mux form equals the closed form. -/
def Obligations.MuxCombinerEqualsClosedForm : Prop :=
  ∀ S : Sources, combineMux S = combine S

/-- R145, R147: two source tuples have the same combination exactly when their words 7 and 6 are the same: no other
word has an effect, and those words can be read back. -/
def Obligations.CombineDependsExactlyOnWords7And6 : Prop :=
  ∀ S T : Sources, combine S = combine T ↔
    (S.h2[7] = T.h2[7] ∧ S.aux1[7] = T.aux1[7] ∧ S.aux2[7] = T.aux2[7] ∧ S.aux3[7] = T.aux3[7]) ∧
    (S.h2[6] = T.h2[6] ∧ S.aux1[6] = T.aux1[6] ∧ S.aux2[6] = T.aux2[6] ∧ S.aux3[6] = T.aux3[6])

/-! ## Bit reversal -/

/-- R180, R181: BITREV32, `xxxxxxx11` with LEN ignored, starts R_REV, SEQ code 10010, which writes BROUT with the
reversed word, bit `i` from bit `31 - i`, and ends the command. -/
def Obligations.RevWritesReversedWord : Prop :=
  (∀ len : BitVec 7, decode (.cmd (len ++ 0b11#2)) = .ok (.bitrev32 len)) ∧
  decode (.useq 0b10010) = .ok .rRev ∧
  (∀ (len : BitVec 7) (s : State), s.seq = Useq.idle → exec (.bitrev32 len) s = .next
    { s with
      opr := 3, lenr := len, brV := false, status := (s.status ||| 0x01) &&& ~~~0x02, seq := 18 }) ∧
  (∀ s : State, s.brinSet = true → exec .rRev s = .next
    { s with
      brout := bitrev32 s.brin, brV := true, status := (s.status ||| 0x02) &&& ~~~0x01, seq := 0 }) ∧
  ∀ (w : Word) (i : Nat), i < 32 → (bitrev32 w).getLsbD i = w.getLsbD (31 - i)

/-- R182: the five-stage swap network is the bit reversal. -/
def Obligations.SwapNetworkIsBitReversal : Prop := ∀ w : Word, bitrevNetwork w = bitrev32 w

/-- R183: the bit reversal is an involution, and distributes over OR, AND and exclusive OR. -/
def Obligations.BitReversalIsAnInvolution : Prop :=
  (∀ w : Word, bitrev32 (bitrev32 w) = w) ∧
  ∀ v w : Word, bitrev32 (v ||| w) = bitrev32 v ||| bitrev32 w ∧
    bitrev32 (v &&& w) = bitrev32 v &&& bitrev32 w ∧ bitrev32 (v ^^^ w) = bitrev32 v ^^^ bitrev32 w

/-! ## Difficulty to masks -/

/-- R164: LOG2ROUND of a positive finite pattern is the one integer nearest to the real logarithm of its value. -/
def Obligations.Log2RoundIsTheNearestInteger : Prop :=
  ∀ (d : BitVec 64) (r : ℤ), positiveFinite d = true →
    ((2 : ℚ) ^ (2 * r - 1) < magnitude d ^ 2 ∧ magnitude d ^ 2 < (2 : ℚ) ^ (2 * r + 1) ↔ r = Config.log2Round d)

/-- R162: the bit budget of a positive finite difficulty is `max(31 + r, 16)`; the floor is reached exactly up to the
pattern 0x3F06A09E667F3BCC. -/
def Obligations.BitBudgetOfPositiveDifficulty : Prop :=
  ∀ d : BitVec 64, positiveFinite d = true →
    (deriveTbits d : ℤ) = max (31 + Config.log2Round d) 16 ∧
    (31 + Config.log2Round d ≤ 16 ↔ d.toNat ≤ 0x3F06A09E667F3BCC)

/-- R163, R171: zero, negative, infinite and NaN difficulties give the floor 16. -/
def Obligations.OtherDifficultiesGiveTheFloor : Prop :=
  ∀ d : BitVec 64,
    d.extractLsb' 52 11 = 2047 ∨ d.extractLsb' 0 63 = 0 ∨ d.getLsbD 63 = true → deriveTbits d = 16

/-- R29, R172: the bit budget is between 16 and 1055, so TBITS holds it whole. -/
def Obligations.BitBudgetIsInRange : Prop :=
  ∀ d : BitVec 64, 16 ≤ deriveTbits d ∧ deriveTbits d ≤ 1055 ∧
    (BitVec.ofNat 11 (deriveTbits d)).toNat = deriveTbits d

/-- R168: the bit budget and every mask width are monotone in the difficulty. -/
def Obligations.BitBudgetIsMonotone : Prop :=
  ∀ d e : BitVec 64, positiveFinite d = true → positiveFinite e = true → magnitude d < magnitude e →
    deriveTbits d ≤ deriveTbits e ∧
    ∀ o, maskWidth (deriveTbits d) o ≤ maskWidth (deriveTbits e) o

/-- R161: M_TBITS, SEQ code 10000, writes TBITS with the bit budget of DIFF. -/
def Obligations.TbitsWritesTheBudget : Prop :=
  decode (.useq 0b10000) = .ok .mTbits ∧ ∀ s : State, s.diffSet = true →
    exec .mTbits s = .next
      { s with tbits := BitVec.ofNat 11 (deriveTbits s.diff), tbitsV := true, seq := 17 }

/-- R165: M_MASKS, SEQ code 10001, writes the four masks in one step and ends the command. -/
def Obligations.MasksWritesTheFourMasks : Prop :=
  decode (.useq 0b10001) = .ok .mMasks ∧ ∀ s : State, s.tbitsV = true →
    exec .mMasks s = .next
      { s with
        mask := #v[bitrev32 (rawMask s.tbits.toNat 0), bitrev32 (rawMask s.tbits.toNat 1),
          bitrev32 (rawMask s.tbits.toNat 2), bitrev32 (rawMask s.tbits.toNat 3)],
        maskV := true, status := (s.status ||| 0x02) &&& ~~~0x01, seq := 0 }

/-- R166: mask `k` has the `n` high bits set, `n = min((tbits + 3 - k) div 4, 31)`; clamping `tbits` to 124 instead
gives the same masks. -/
def Obligations.MaskHasItsHighBitsSet : Prop :=
  ∀ t : Nat,
    (∀ k < 4, (deriveMasks t)[k]!.toNat = 2 ^ 32 - 2 ^ (32 - min ((t + (3 - k)) / 4) 31)) ∧
    deriveMasks (min t 124) = deriveMasks t

/-- R167: as `tbits` grows by one, exactly one slot's width grows by one, in the cyclic order 0, 1, 2, 3. -/
def Obligations.OneSlotGrowsAtATime : Prop :=
  ∀ t k : Nat, 16 ≤ t → t < 124 → k < 4 →
    maskWidth (t + 1) Config.offsets[k]! = maskWidth t Config.offsets[k]! + (if k = t % 4 then 1 else 0)

/-- R170: for a budget of 16 to 124, the masks test exactly the leading positions of the combined hash: word 7 of every
source is clear under its mask if and only if positions 0 to `t - 1` of OUT are all zero. -/
def Obligations.MasksTestTheLeadingBits : Prop :=
  ∀ (S : Sources) (t : Nat), 16 ≤ t → t ≤ 124 →
    ((∀ k < 4, sourceWord S k 7 &&& (deriveMasks t)[k]! = 0) ↔
      ∀ p < t, ((combine S)[7 - p / 32]!).getLsbD (31 - p % 32) = false)

/-! ## Where an instruction stops, what it leaves alone -/

/-- R31, R61, R194: an instruction answers a next state exactly when the header operand is there, if it reads one, and
none is ever refused. A register that holds no value never stops one (log 1). That an unwritten header byte stops is
log 3; what is said of a header operand with LENR neither 80 nor 84, of which R61 says nothing, is the model's choice
(log 23). -/
def Obligations.ExecCompletesExactlyWhenTheHeaderHolds : Prop :=
  ∀ (i : Instr) (s : State),
    ((∃ t, exec i s = .next t) ↔ headerHoldsFor i s) ∧ ∀ r, exec i s ≠ .refused r

/-- R40: what a micro-operation does whose operand holds no value. A header byte stops it (log 3). A register (its valid
flag 0, or an input not written since reset) is read as a free value, of which nothing is known, and every other effect is
the instruction's own (log 1). For a LENR neither 80 nor 84, of which R61 says nothing, the stop is the model's choice
(log 23): up to 84 it reads as any other length, above 84 there is no such address. -/
def Obligations.OperandWithoutAValue : Prop :=
  ∀ s : State,
    (∀ i ∈ [Instr.hHefty, .hSha, .hKUpdIn, .hGUpdIn, .hBUpdIn],
      (84 < s.lenr.toNat → exec i s = .fault .noSuchAddress) ∧
      (s.lenr.toNat ≤ 84 → s.header = none → exec i s = .fault .headerNoValue)) ∧
    (∀ m, s.lenr = 80 ∨ s.lenr = 84 → s.header = some m →
      (s.h1V = false → ∃ t, exec .hSha s = .next t ∧
        t = { s with
          h2 := wordsOf .little 8 (Config.engines.sha256 (m ++ (s.noValue.h1 s.h1).toList)), h2V := true,
          seq := 3, engineCalls := t.engineCalls }) ∧
      (s.kcV = false → ∃ t, exec .hKUpdIn s = .next t ∧
        t = { s with
          kc := Config.engines.keccak512.update (s.noValue.kc s.kc) m, seq := 5, engineCalls := t.engineCalls }) ∧
      (s.gcV = false → ∃ t, exec .hGUpdIn s = .next t ∧
        t = { s with
          gc := Config.engines.groestl512.update (s.noValue.gc s.gc) m, seq := 9, engineCalls := t.engineCalls }) ∧
      (s.bcV = false → ∃ t, exec .hBUpdIn s = .next t ∧
        t = { s with
          bc := Config.engines.blake512.update (s.noValue.bc s.bc) m, seq := 13, engineCalls := t.engineCalls })) ∧
    (s.h1V = false ∨ s.kcV = false → ∃ t, exec .hKUpdH1 s = .next t ∧
      t = { s with
        kc := Config.engines.keccak512.update (if s.kcV then s.kc else s.noValue.kc s.kc)
          (if s.h1V then s.h1 else s.noValue.h1 s.h1).toList,
        seq := 6, engineCalls := t.engineCalls }) ∧
    (s.h1V = false ∨ s.gcV = false → ∃ t, exec .hGUpdH1 s = .next t ∧
      t = { s with
        gc := Config.engines.groestl512.update (if s.gcV then s.gc else s.noValue.gc s.gc)
          (if s.h1V then s.h1 else s.noValue.h1 s.h1).toList,
        seq := 10, engineCalls := t.engineCalls }) ∧
    (s.h1V = false ∨ s.bcV = false → ∃ t, exec .hBUpdH1 s = .next t ∧
      t = { s with
        bc := Config.engines.blake512.update (if s.bcV then s.bc else s.noValue.bc s.bc)
          (if s.h1V then s.h1 else s.noValue.h1 s.h1).toList,
        seq := 14, engineCalls := t.engineCalls }) ∧
    (s.kcV = false → ∃ t, exec .hKFin s = .next t ∧
      t = { s with
        aux1 := wordsOf .little 16 (Config.engines.keccak512.finalize (s.noValue.kc s.kc)),
        aux1V := true, kc := t.kc, seq := 7, engineCalls := t.engineCalls }) ∧
    (s.gcV = false → ∃ t, exec .hGFin s = .next t ∧
      t = { s with
        aux2 := wordsOf .little 16 (Config.engines.groestl512.finalize (s.noValue.gc s.gc)),
        aux2V := true, gc := t.gc, seq := 11, engineCalls := t.engineCalls }) ∧
    (s.bcV = false → ∃ t, exec .hBFin s = .next t ∧
      t = { s with
        aux3 := wordsOf .little 16 (Config.engines.blake512.finalize (s.noValue.bc s.bc)),
        aux3V := true, bc := t.bc, seq := 15, engineCalls := t.engineCalls }) ∧
    (s.h2V = false ∨ s.aux1V = false ∨ s.aux2V = false ∨ s.aux3V = false → ∃ t, exec .hCombine s = .next t ∧
      t = { s with
        out := combine
          ⟨if s.h2V then s.h2 else s.noValue.h2 s.h2,
            if s.aux1V then s.aux1 else s.noValue.aux1 s.aux1,
            if s.aux2V then s.aux2 else s.noValue.aux2 s.aux2,
            if s.aux3V then s.aux3 else s.noValue.aux3 s.aux3⟩,
        outV := true, acc := t.acc, bitCount := t.bitCount, status := (s.status ||| 0x02) &&& ~~~0x01, seq := 0 }) ∧
    (s.diffSet = false → exec .mTbits s = .next
      { s with
        tbits := BitVec.ofNat 11 (deriveTbits (s.noValue.diff s.diff)), tbitsV := true, seq := 17 }) ∧
    (s.tbitsV = false → exec .mMasks s = .next
      { s with
        mask := deriveMasks (s.noValue.tbits s.tbits).toNat, maskV := true,
        status := (s.status ||| 0x02) &&& ~~~0x01, seq := 0 }) ∧
    (s.brinSet = false → exec .rRev s = .next
      { s with
        brout := bitrev32 (s.noValue.brin s.brin), brV := true,
        status := (s.status ||| 0x02) &&& ~~~0x01, seq := 0 })

/-- R62, R22, R31: no instruction changes HDR, DIFF, BRIN, the command port, anything of the host, or what the free
values hang on (log 1); every byte of the header buffer reads as before. -/
def Obligations.InstructionsLeaveInputsAlone : Prop :=
  ∀ (i : Instr) (s t : State), exec i s = .next t →
    (∀ a, t.hdr.readByte a = s.hdr.readByte a) ∧ t.hdr = s.hdr ∧
    t.diff = s.diff ∧ t.diffSet = s.diffSet ∧ t.brin = s.brin ∧ t.brinSet = s.brinSet ∧
    t.cmd = s.cmd ∧ t.host = s.host ∧ t.reads = s.reads ∧ t.chip = s.chip ∧ t.resets = s.resets

/-- R21, R29, R35, R39: an instruction writes the registers and flags of its own command only; the latches and
FAULTINFO are written by command words only. -/
def Obligations.InstructionsWriteTheirOwnCommandOnly : Prop :=
  ∀ (i : Instr) (s t : State), exec i s = .next t →
    (commandOf i ≠ Op.hash →
      t.h1 = s.h1 ∧ t.h2 = s.h2 ∧ t.aux1 = s.aux1 ∧ t.aux2 = s.aux2 ∧ t.aux3 = s.aux3 ∧ t.out = s.out ∧
      t.kc = s.kc ∧ t.gc = s.gc ∧ t.bc = s.bc ∧ t.acc = s.acc ∧ t.bitCount = s.bitCount ∧
      t.engineCalls = s.engineCalls ∧
      t.h1V = s.h1V ∧ t.h2V = s.h2V ∧ t.aux1V = s.aux1V ∧ t.aux2V = s.aux2V ∧ t.aux3V = s.aux3V ∧
      t.kcV = s.kcV ∧ t.gcV = s.gcV ∧ t.bcV = s.bcV ∧ t.outV = s.outV) ∧
    (commandOf i ≠ Op.deriveMasks →
      t.tbits = s.tbits ∧ t.mask = s.mask ∧ t.tbitsV = s.tbitsV ∧ t.maskV = s.maskV) ∧
    (commandOf i ≠ Op.bitrev32 → t.brout = s.brout ∧ t.brV = s.brV) ∧
    (isMicro i = true → t.opr = s.opr ∧ t.lenr = s.lenr ∧ t.faultInfo = s.faultInfo)

/-- R31, R97: a micro-operation that answers a next state sets SEQ to the one successor of the table; the last of a
command also does BUSY <- 0, DONE <- 1, and any other leaves STATUS. -/
def Obligations.SuccessorOfEachMicroOperation : Prop :=
  ∀ (u : BitVec 5) (i : Instr) (s t : State), decode (.useq u) = .ok i → exec i s = .next t →
    if u = 15 ∨ u = 17 ∨ u = 18 then
      t.seq = 0 ∧ t.busy = false ∧ t.done = true ∧ ∀ b, 2 ≤ b → t.status.getLsbD b = s.status.getLsbD b
    else t.seq = u + 1 ∧ t.status = s.status

/-! ## Invariants -/

/-- The control invariant (R30 to R35, R78) is kept by every step, from every state that meets it. -/
def Obligations.StepKeepsControl : Prop :=
  ∀ s t : State, s.Control → step s = .next t → t.Control

/-- R193: every step keeps the result invariant: a register whose valid flag is set holds the complete correct value
for some one input of a legal length. -/
def Obligations.StepKeepsResultsCorrect : Prop :=
  ∀ s t : State, s.Control → s.Results → step s = .next t → t.Results

/-- Both invariants hold after reset. -/
def Obligations.InvariantsHoldAtReset : Prop := State.reset.Control ∧ State.reset.Results

/-- R32: under the control invariant BUSY says SEQ is neither IDLE nor HALT, at most one of BUSY, DONE and an error bit
is set, the two error bits are never both set, and the reserved bits read 0. -/
def Obligations.StatusBitsExcludeOneAnother : Prop :=
  ∀ s : State, s.Control →
    (s.busy = true ↔ s.seq ≠ Useq.idle ∧ s.seq ≠ Useq.halt) ∧
    ¬ (s.busy = true ∧ s.done = true) ∧
    ¬ (s.busy = true ∧ (s.errLen = true ∨ s.errOp = true)) ∧
    ¬ (s.done = true ∧ (s.errLen = true ∨ s.errOp = true)) ∧
    ¬ (s.errLen = true ∧ s.errOp = true) ∧
    s.status.extractLsb' 4 4 = 0

/-- R190, R194: HALT is entered only by the acceptance of a reserved command code or of HASH with an illegal length. -/
def Obligations.OnlyAcceptanceEntersHalt : Prop :=
  ∀ s t : State, s.seq ≠ Useq.halt → step s = .next t → t.seq = Useq.halt →
    ∃ u c, s.turn = some u ∧ u.seq = Useq.idle ∧ u.cmd = some c ∧
      (cmdOp c = Op.reserved ∨ (cmdOp c = Op.hash ∧ cmdLen c ≠ 80 ∧ cmdLen c ≠ 84))

/-- R198: in HALT no step but reset changes anything of the block: only the inputs, the command port and the host's own
fields can change. -/
def Obligations.OnlyResetLeavesHalt : Prop :=
  ∀ s t : State, s.seq = Useq.halt → s.host.head? ≠ some .rst → step s = .next t →
    t = { s with
      hdr := t.hdr, diff := t.diff, diffSet := t.diffSet, brin := t.brin, brinSet := t.brinSet,
      cmd := t.cmd, host := t.host, reads := t.reads }

/-- R220, R42: a step with `rst` asserted is a reset step whatever the state and whatever command is presented, and
leaves the reset values, which the state right after reset has too. -/
def Obligations.ResetStepGivesTheResetValues : Prop :=
  (∀ (s : State) (r : List HostAct), s.host = .rst :: r →
    ∃ t, step s = .next t ∧ t.hasResetValues) ∧
  State.reset.hasResetValues

/-! ## Whole commands -/

/-- R129, R194: under the control invariant, with the header written if HASH runs, the sequencer's move never stops. -/
def Obligations.RunningCommandNeverStops : Prop :=
  ∀ s t : State, s.Control → s.turn = some t → t.inputsHold → ∃ u, step s = .next u

/-- R231: a command in progress reaches its end, DONE at IDLE, after at most 15 steps of the sequencer. -/
def Obligations.CommandReachesItsEnd : Prop :=
  ∀ s : State, s.Control → s.host = [] → s.busy = true → s.inputsHold →
    ∃ n ≤ 15, ∃ t, Host.Core.run Sys2Proof.core n s = .next t ∧ t.seq = Useq.idle ∧ t.done = true ∧ t.busy = false

/-- R110: HASH presented at IDLE ends after 16 steps with these values in H1, H2, AUX1 to AUX3 and OUT, for the header
in HDR; DONE alone of the command's status, the flags as said, everything of the other commands untouched. -/
def Obligations.HashCommandComputesTheHash : Prop :=
  ∀ (s : State) (len : BitVec 7) (m : Bytes),
    s.host = [] → s.seq = Useq.idle → s.cmd = some (cmdWord len Op.hash) → len = 80 ∨ len = 84 →
    s.hdr.readBytes 0 len.toNat = some m →
    ∃ t, Host.Core.run Sys2Proof.core 16 s = .next t ∧
      t.h1 = Config.engines.hefty1 m ∧
      t.h2 = wordsOf .little 8 (Config.engines.sha256 (m ++ t.h1.toList)) ∧
      t.aux1 = wordsOf .little 16 (Config.engines.keccak512.finalize
        (Config.engines.keccak512.update (Config.engines.keccak512.update Config.engines.keccak512.init m)
          t.h1.toList)) ∧
      t.aux2 = wordsOf .little 16 (Config.engines.groestl512.finalize
        (Config.engines.groestl512.update (Config.engines.groestl512.update Config.engines.groestl512.init m)
          t.h1.toList)) ∧
      t.aux3 = wordsOf .little 16 (Config.engines.blake512.finalize
        (Config.engines.blake512.update (Config.engines.blake512.update Config.engines.blake512.init m)
          t.h1.toList)) ∧
      t.out = combine ⟨t.h2, t.aux1, t.aux2, t.aux3⟩ ∧
      t.seq = Useq.idle ∧ t.busy = false ∧ t.done = true ∧
      t.h1V = true ∧ t.h2V = true ∧ t.aux1V = true ∧ t.aux2V = true ∧ t.aux3V = true ∧ t.outV = true ∧
      t.kcV = false ∧ t.gcV = false ∧ t.bcV = false ∧
      t.opr = Op.hash ∧ t.lenr = len ∧ t.hdr = s.hdr ∧
      t.tbits = s.tbits ∧ t.mask = s.mask ∧ t.brout = s.brout ∧
      t.tbitsV = s.tbitsV ∧ t.maskV = s.maskV ∧ t.brV = s.brV

/-- R128, R227, R78: the engine calls of one HASH are exactly these fourteen, two separate updates an engine. -/
def Obligations.HashMakesExactlyTheseEngineCalls : Prop :=
  ∀ (s : State) (len : BitVec 7) (m : Bytes),
    s.host = [] → s.seq = Useq.idle → s.cmd = some (cmdWord len Op.hash) → len = 80 ∨ len = 84 →
    s.hdr.readBytes 0 len.toNat = some m →
    ∃ t, Host.Core.run Sys2Proof.core 16 s = .next t ∧ m.length = len.toNat ∧ t.h1.toList.length = 32 ∧
      t.engineCalls = s.engineCalls ++
        [.hefty1 m, .sha256 (m ++ t.h1.toList),
          .init .keccak, .update .keccak m, .update .keccak t.h1.toList, .finalize .keccak,
          .init .groestl, .update .groestl m, .update .groestl t.h1.toList, .finalize .groestl,
          .init .blake, .update .blake m, .update .blake t.h1.toList, .finalize .blake]

/-- R130, R16, R63: two runs of HASH from any two states that agree on the length and on the header bytes below it
leave the same H1, H2, AUX1 to AUX3 and OUT. -/
def Obligations.HashDependsOnTheHeaderAlone : Prop :=
  ∀ (s s' t t' : State) (len : BitVec 7),
    s.host = [] → s'.host = [] → s.seq = Useq.idle → s'.seq = Useq.idle →
    s.cmd = some (cmdWord len Op.hash) → s'.cmd = some (cmdWord len Op.hash) → len = 80 ∨ len = 84 →
    (∀ a < len.toNat, s.hdr.readByte a = s'.hdr.readByte a) →
    Host.Core.run Sys2Proof.core 16 s = .next t → Host.Core.run Sys2Proof.core 16 s' = .next t' →
    t.h1 = t'.h1 ∧ t.h2 = t'.h2 ∧ t.aux1 = t'.aux1 ∧ t.aux2 = t'.aux2 ∧ t.aux3 = t'.aux3 ∧ t.out = t'.out

/-- R160: DERIVE_MASKS presented at IDLE ends after 3 steps with the bit budget of DIFF and its four masks, for every
value of DIFF; nothing of HASH or BITREV32 changes. DIFF not written since reset is a free value (log 1). -/
def Obligations.DeriveMasksCommandComputesTheMasks : Prop :=
  ∀ (s : State) (len : BitVec 7) (d : BitVec 64),
    s.host = [] → s.seq = Useq.idle → s.cmd = some (cmdWord len Op.deriveMasks) →
    (s.diffSet = true ∧ d = s.diff) ∨ (s.diffSet = false ∧ d = s.noValue.diff s.diff) →
    Host.Core.run Sys2Proof.core 3 s = .next
      { s with
        cmd := none, opr := 2, lenr := len,
        tbits := BitVec.ofNat 11 (deriveTbits d), tbitsV := true,
        mask := deriveMasks (deriveTbits d), maskV := true,
        status := (s.status ||| 0x02) &&& ~~~0x01, seq := 0 }

/-- R180: BITREV32 presented at IDLE ends after 2 steps with the reversed word in BROUT. BRIN not written since reset
is a free value (log 1). -/
def Obligations.Bitrev32CommandReverses : Prop :=
  ∀ (s : State) (len : BitVec 7) (w : Word),
    s.host = [] → s.seq = Useq.idle → s.cmd = some (cmdWord len Op.bitrev32) →
    (s.brinSet = true ∧ w = s.brin) ∨ (s.brinSet = false ∧ w = s.noValue.brin s.brin) →
    Host.Core.run Sys2Proof.core 2 s = .next
      { s with
        cmd := none, opr := 3, lenr := len, brout := bitrev32 w, brV := true,
        status := (s.status ||| 0x02) &&& ~~~0x01, seq := 0 }

/-- R98: two micro-operations of the hash chain that the partial order leaves open write the same values in either
order; the final states differ at most in SEQ and in the order of the recorded engine calls. -/
def Obligations.IndependentMicroOperationsCommute : Prop :=
  ∀ (i j : Instr) (s a b : State), independent i j →
    exec i s = .next a → exec j a = .next b →
    ∃ c d, exec j s = .next c ∧ exec i c = .next d ∧ sameValues b d

/-! ## The host and the platform -/

/-- R62, R41, R223, R224: a header write inside addresses 0 to 83 by the host while BUSY = 0 changes exactly the bytes
written, a write of DIFF or BRIN changes that register and that it holds a value, and each leaves the rest of the state
alone; while BUSY = 1 each is a breach of contract (log 13). A header write of no byte, or past address 83, is one
whatever BUSY is (log 15). -/
def Obligations.HostWritesHeaderBytes : Prop :=
  (∀ (s : State) (a : Nat) (bs : Bytes), bs ≠ [] → a + bs.length ≤ 84 →
    (s.busy = true → hostAct (.wrHdr a bs) s = .fault .hostWriteWhileBusy) ∧
    (s.busy = false → ∃ t, hostAct (.wrHdr a bs) s = .next t ∧ t = { s with hdr := t.hdr } ∧
      (∀ i < bs.length, t.hdr.readByte (a + i) = bs[i]?) ∧
      ∀ b, b < a ∨ a + bs.length ≤ b → t.hdr.readByte b = s.hdr.readByte b)) ∧
  (∀ (s : State) (a : Nat) (bs : Bytes), bs = [] ∨ 84 < a + bs.length →
    hostAct (.wrHdr a bs) s = .fault .noSuchAddress) ∧
  ∀ (s : State) (x : BitVec 64) (w : Word),
    (s.busy = true →
      hostAct (.wrDiff x) s = .fault .hostWriteWhileBusy ∧ hostAct (.wrBrin w) s = .fault .hostWriteWhileBusy) ∧
    (s.busy = false →
      hostAct (.wrDiff x) s = .next { s with diff := x, diffSet := true } ∧
      hostAct (.wrBrin w) s = .next { s with brin := w, brinSet := true })

/-- R41, R225, R40, R68: the host reads a result register with BUSY = 0 and its flag 1, a byte of HDR that holds a value,
and DIFF, BRIN, a control register, a flag or the ready line at any time; a read changes nothing but what the host has
read (log 18), so it is idempotent. DIFF or BRIN not written since reset, and a result while BUSY = 1 or its flag is 0,
reads as a free value (logs 1 and 14). A byte of HDR without a value and an address above 83 are model faults (logs 3
and 15). -/
def Obligations.HostReadsResultsWhenValid : Prop :=
  ∀ s : State,
    (∀ p ∈ ([(.h1, .h1, s.h1.toList.map BitVec.toNat,
          (s.noValue.h1 s.h1).toList.map BitVec.toNat),
        (.h2, .h2, s.h2.toList.map BitVec.toNat,
          (s.noValue.h2 s.h2).toList.map BitVec.toNat),
        (.aux1, .aux1, s.aux1.toList.map BitVec.toNat,
          (s.noValue.aux1 s.aux1).toList.map BitVec.toNat),
        (.aux2, .aux2, s.aux2.toList.map BitVec.toNat,
          (s.noValue.aux2 s.aux2).toList.map BitVec.toNat),
        (.aux3, .aux3, s.aux3.toList.map BitVec.toNat,
          (s.noValue.aux3 s.aux3).toList.map BitVec.toNat),
        (.out, .out, s.out.toList.map BitVec.toNat,
          (s.noValue.out s.out).toList.map BitVec.toNat),
        (.tbits, .tbits, [s.tbits.toNat],
          [(s.noValue.tbits s.tbits).toNat]),
        (.mask, .mask, s.mask.toList.map BitVec.toNat,
          (s.noValue.mask s.mask).toList.map BitVec.toNat),
        (.brout, .br, [s.brout.toNat],
          [(s.noValue.brout s.brout).toNat])] : List (HostReg × Flag × List Nat × List Nat)),
      (s.busy = false → s.flag p.2.1 = true →
        hostAct (.read p.1) s = .next { s with reads := s.reads ++ [⟨p.1, p.2.2.1⟩] }) ∧
      (s.busy = true ∨ s.flag p.2.1 = false →
        hostAct (.read p.1) s = .next { s with reads := s.reads ++ [⟨p.1, p.2.2.2⟩] })) ∧
    (∀ p ∈ ([(.opr, s.opr.toNat), (.lenr, s.lenr.toNat), (.seq, s.seq.toNat), (.status, s.status.toNat),
        (.faultInfo, s.faultInfo.toNat), (.cmdReady, s.cmdReady.toNat)] : List (HostReg × Nat)),
      hostAct (.read p.1) s = .next { s with reads := s.reads ++ [⟨p.1, [p.2]⟩] }) ∧
    (∀ f, hostAct (.read (.valid f)) s = .next { s with reads := s.reads ++ [⟨.valid f, [(s.flag f).toNat]⟩] }) ∧
    (∀ a,
      (84 ≤ a → hostAct (.read (.hdr a)) s = .fault .noSuchAddress) ∧
      (a < 84 → s.hdr.readByte a = none → hostAct (.read (.hdr a)) s = .fault .headerNoValue) ∧
      ∀ v, a < 84 → s.hdr.readByte a = some v →
        hostAct (.read (.hdr a)) s = .next { s with reads := s.reads ++ [⟨.hdr a, [v.toNat]⟩] }) ∧
    (s.diffSet = false →
      hostAct (.read .diff) s = .next { s with reads := s.reads ++ [⟨.diff, [(s.noValue.diff s.diff).toNat]⟩] }) ∧
    (s.diffSet = true →
      hostAct (.read .diff) s = .next { s with reads := s.reads ++ [⟨.diff, [s.diff.toNat]⟩] }) ∧
    (s.brinSet = false →
      hostAct (.read .brin) s = .next { s with reads := s.reads ++ [⟨.brin, [(s.noValue.brin s.brin).toNat]⟩] }) ∧
    (s.brinSet = true →
      hostAct (.read .brin) s = .next { s with reads := s.reads ++ [⟨.brin, [s.brin.toNat]⟩] })

/-- R100, R80: the pseudo-instruction `hash(h)` on a block that is at IDLE and not busy: after the header write, the
command, the wait and the read, what the host has read is the combined hash of `h` and of nothing else. -/
def Obligations.HashScriptReturnsTheCombinedHash : Prop :=
  ∀ (s : State) (h : Bytes) (r : List HostAct), h.length = 80 ∨ h.length = 84 →
    s.seq = Useq.idle → s.busy = false → s.host = hashScript h ++ r →
    ∃ t, Host.Core.run Sys2Proof.core 21 s = .next t ∧ t.host = r ∧ t.cmd = none ∧
      t.seq = Useq.idle ∧ t.done = true ∧
      t.reads = s.reads ++ [⟨.out, (powHash Config.engines h).toList.map BitVec.toNat⟩]

/-- R45, R203: a step of one of `nInst` instances leaves every other instance as it was, and is that instance's own
step: instances share no state, and a fault halts only the one that took it. A step that instance can take, the
platform can take. -/
def Obligations.InstancesShareNoState : Prop :=
  ∀ (nInst : Nat) (P : Platform nInst) (k : Fin nInst),
    (∀ Q, Platform.step k P = .next Q →
      (∀ j, j ≠ k → Q.instances[j] = P.instances[j]) ∧ step P.instances[k] = .next Q.instances[k]) ∧
    ∀ t, step P.instances[k] = .next t → ∃ Q, Platform.step k P = .next Q
end

