-- ==== Sys2Proof/Laws/Bits.lean ====
section
/-! SUPPORT. One reading lemma for each bit-level function: which bit of which operand a bit of the result is. -/

namespace Sys2Proof.Machine

@[simp] theorem getLsbD_ofBits (n : Nat) (f : Nat → Bool) (i : Nat) :
    (ofBits n f).getLsbD i = (decide (i < n) && f i) := by
  induction n with
  | zero => simp [ofBits]
  | succ n ih =>
    simp only [ofBits, BitVec.getLsbD_cons, ih]
    by_cases h : i = n
    · simp [h]
    · by_cases h2 : i < n
      · have h3 : i < n + 1 := by omega
        simp [h, h2, h3]
      · have h3 : ¬ i < n + 1 := by omega
        simp [h, h2, h3]

@[simp] theorem getLsbD_setBit {n : Nat} (w : BitVec n) (i j : Nat) (b : Bool) :
    (setBit w i b).getLsbD j = if j = i then decide (j < n) && b else w.getLsbD j := by
  unfold setBit
  rw [getLsbD_ofBits]
  by_cases h : j = i
  · simp [h]
  · by_cases h2 : j < n
    · simp [h, h2]
    · simp [h, h2, BitVec.getLsbD_of_ge w j (by omega)]

@[simp] theorem getElem_ofBits (n : Nat) (f : Nat → Bool) (i : Nat) (h : i < n) : (ofBits n f)[i] = f i := by
  rw [← BitVec.getLsbD_eq_getElem, getLsbD_ofBits]
  simp [h]

@[simp] theorem getElem_setBit {n : Nat} (w : BitVec n) (i j : Nat) (b : Bool) (h : j < n) :
    (setBit w i b)[j] = if j = i then b else w[j] := by
  rw [← BitVec.getLsbD_eq_getElem, getLsbD_setBit]
  simp [h]

theorem shl32_eq (w : Word) (n : Fin 32) : shl32 w n = w <<< n.val := by
  apply BitVec.eq_of_toNat_eq
  simp [shl32, Nat.shiftLeft_eq]

theorem shr32_eq (w : Word) (n : Fin 32) : shr32 w n = w >>> n.val := by
  apply BitVec.eq_of_toNat_eq
  simp only [shr32, BitVec.toNat_ofNat, BitVec.toNat_ushiftRight, Nat.shiftRight_eq_div_pow]
  exact Nat.mod_eq_of_lt (lt_of_le_of_lt (Nat.div_le_self _ _) w.isLt)

@[simp] theorem getLsbD_bitrev32 (w : Word) (i : Nat) :
    (bitrev32 w).getLsbD i = (decide (i < 32) && w.getLsbD (31 - i)) := getLsbD_ofBits 32 _ i

@[simp] theorem getElem_bitrev32 (w : Word) (i : Nat) (h : i < 32) : (bitrev32 w)[i] = w.getLsbD (31 - i) :=
  getElem_ofBits 32 _ i h

theorem getLsbD_combine (S : Sources) (w : Nat) (hw : w < 8) (y : Nat) (hy : y < 32) :
    (combine S)[w].getLsbD y = sourceBit S (32 * (7 - w) + (31 - y)) := by
  simp [combine, hy]

theorem getLsbD_combineMux (S : Sources) (w : Nat) (hw : w < 8) (y : Nat) (hy : y < 32) :
    (combineMux S)[w].getLsbD y =
      (sourceWord S (3 - y % 4) (if 4 ≤ w then 7 else 6)).getLsbD (8 * (w % 4) + y / 4) := by
  simp [combineMux, hy]

theorem getElem_wordsOf (o : ByteOrder) (n : Nat) (s : Vector Byte (4 * n)) (i : Nat) (h : i < n) :
    (wordsOf o n s)[i] = wordOf o (s[4 * i]'(by omega)) (s[4 * i + 1]'(by omega))
      (s[4 * i + 2]'(by omega)) (s[4 * i + 3]'(by omega)) := by
  simp [wordsOf]

theorem getElem_bytesOf (o : ByteOrder) {n : Nat} (x : Vector Word n) (i : Nat) (h : i < 4 * n) :
    (bytesOf o x)[i] = byteOf o (x[i / 4]'(by omega)) (i % 4) := by
  simp [bytesOf]

theorem getElem_deriveMasks (t s : Nat) (h : s < 4) :
    (deriveMasks t)[s] = bitrev32 (rawMask t ⟨s, h⟩) := by
  simp [deriveMasks]

end Sys2Proof.Machine
end

