-- ==== Sys2Proof/Laws/Decode.lean ====
section
/-! SUPPORT. Inversion of the decoder: which SEQ values name which micro-operation. -/

namespace Sys2Proof

/-- The rows of R97, read backwards. -/
theorem decodeUseq_cases {u : BitVec 5} {i : Instr} (h : decodeUseq u = .ok i) :
    (u = Useq.hHefty ∧ i = .hHefty) ∨ (u = Useq.hSha ∧ i = .hSha) ∨ (u = Useq.hKInit ∧ i = .hKInit) ∨
    (u = Useq.hKUpdIn ∧ i = .hKUpdIn) ∨ (u = Useq.hKUpdH1 ∧ i = .hKUpdH1) ∨ (u = Useq.hKFin ∧ i = .hKFin) ∨
    (u = Useq.hGInit ∧ i = .hGInit) ∨ (u = Useq.hGUpdIn ∧ i = .hGUpdIn) ∨ (u = Useq.hGUpdH1 ∧ i = .hGUpdH1) ∨
    (u = Useq.hGFin ∧ i = .hGFin) ∨ (u = Useq.hBInit ∧ i = .hBInit) ∨ (u = Useq.hBUpdIn ∧ i = .hBUpdIn) ∨
    (u = Useq.hBUpdH1 ∧ i = .hBUpdH1) ∨ (u = Useq.hBFin ∧ i = .hBFin) ∨ (u = Useq.hCombine ∧ i = .hCombine) ∨
    (u = Useq.mTbits ∧ i = .mTbits) ∨ (u = Useq.mMasks ∧ i = .mMasks) ∨ (u = Useq.rRev ∧ i = .rRev) := by
  obtain ⟨k, hk, rfl⟩ : ∃ k < 32, u = BitVec.ofNat 5 k := ⟨u.toNat, u.isLt, by simp⟩
  interval_cases k <;> cases h <;> decide

/-- A SEQ value that names no micro-operation is IDLE, HALT or unused (R93, R97). -/
theorem decodeUseq_error {u : BitVec 5} {e : DecodeError} (h : decodeUseq u = .error e) :
    (u = Useq.idle ∧ e = .idleState) ∨ (u = Useq.halt ∧ e = .haltState) ∨
    (19 ≤ u.toNat ∧ u.toNat ≤ 30 ∧ e = .unusedCode) := by
  obtain ⟨k, hk, rfl⟩ : ∃ k < 32, u = BitVec.ofNat 5 k := ⟨u.toNat, u.isLt, by simp⟩
  interval_cases k <;> cases h <;> decide

end Sys2Proof
end

