-- ==== Sys2Proof/Laws/Memory.lean ====
section
/-! SUPPORT. The laws of the header buffer: reading after a write, and the canonical form kept by every operation. -/

namespace Sys2Proof.Machine

@[simp] theorem readByte_nil (a : Nat) : Memory.readByte [] a = none := rfl

/-- A byte not listed below every listed address holds no value. -/
theorem readByte_eq_none (m : Memory) (a : Nat) (h : ∀ c ∈ m, a < c.1) : m.readByte a = none := by
  induction m with
  | nil => rfl
  | cons c m ih =>
    have h1 := h c (by simp)
    simp only [Memory.readByte]
    rw [if_neg (by omega)]
    exact ih fun d hd => h d (by simp [hd])

/-- A read after a write gives the byte written there, and every other address reads as before. -/
theorem readByte_writeByte (m : Memory) (a b : Nat) (v : Byte) :
    (m.writeByte a v).readByte b = if b = a then some v else m.readByte b := by
  induction m with
  | nil => simp [Memory.writeByte, Memory.readByte]
  | cons c m ih =>
    obtain ⟨k, w⟩ := c
    unfold Memory.writeByte
    split
    · simp [Memory.readByte]
    · split
      · simp only [Memory.readByte]
        split <;> simp_all
      · simp only [Memory.readByte, ih]
        split <;> split <;> simp_all

/-- Writing bytes from `a` on: the written range reads back, everything else reads as before. -/
theorem readByte_writeBytes (bs : Bytes) (m : Memory) (a b : Nat) :
    (m.writeBytes a bs).readByte b = if a ≤ b then (bs[b - a]?).orElse (fun _ => m.readByte b) else m.readByte b := by
  induction bs generalizing m a with
  | nil => simp [Memory.writeBytes]
  | cons v vs ih =>
    simp only [Memory.writeBytes, ih, readByte_writeByte]
    by_cases h : b = a
    · subst h; simp
    · by_cases h2 : a + 1 ≤ b
      · have h3 : a ≤ b := by omega
        have h4 : b - a = (b - (a + 1)) + 1 := by omega
        simp [h2, h3, h4, h]
      · have h3 : ¬ a ≤ b := by omega
        simp [h2, h3, h]

/-- The addresses a write lists. -/
theorem mem_writeByte (m : Memory) (a : Nat) (v : Byte) (c : Host.Cell) (h : c ∈ m.writeByte a v) :
    c.1 = a ∨ c ∈ m := by
  induction m with
  | nil => simp_all [Memory.writeByte]
  | cons d m ih =>
    obtain ⟨k, w⟩ := d
    unfold Memory.writeByte at h
    split at h
    · rcases List.mem_cons.1 h with h | h
      · exact .inl (congrArg Prod.fst h)
      · exact .inr h
    · split at h
      · rcases List.mem_cons.1 h with h | h
        · exact .inl (congrArg Prod.fst h)
        · exact .inr (List.mem_cons_of_mem _ h)
      · simp only [List.mem_cons] at h ⊢
        rcases h with h | h
        · exact .inr (.inl h)
        · rcases ih h with h | h
          · exact .inl h
          · exact .inr (.inr h)

/-- A write inside HDR keeps the canonical form. -/
theorem wf_writeByte (m : Memory) (a : Nat) (v : Byte) (hm : m.wf) (ha : a < Config.hdrSize) :
    (m.writeByte a v).wf := by
  refine ⟨?_, fun c hc => ?_⟩
  · have hp := hm.1
    clear hm
    induction m with
    | nil => simp [Memory.writeByte]
    | cons d m ih =>
      obtain ⟨k, w⟩ := d
      simp only [List.map_cons, List.pairwise_cons, List.mem_map, forall_exists_index, and_imp,
        forall_apply_eq_imp_iff₂] at hp
      unfold Memory.writeByte
      split
      · rename_i h
        simp only [List.map_cons, List.pairwise_cons, List.mem_cons, List.mem_map, forall_eq_or_imp]
        exact ⟨⟨h, by rintro b ⟨c, hc, rfl⟩; have := hp.1 c hc; omega⟩,
          by rintro b ⟨c, hc, rfl⟩; exact hp.1 c hc, hp.2⟩
      · split
        · rename_i h
          subst h
          simp only [List.map_cons, List.pairwise_cons, List.mem_map, forall_exists_index, and_imp,
            forall_apply_eq_imp_iff₂]
          exact hp
        · simp only [List.map_cons, List.pairwise_cons, List.mem_map, forall_exists_index, and_imp,
            forall_apply_eq_imp_iff₂]
          refine ⟨fun c hc => ?_, ih hp.2⟩
          rcases mem_writeByte _ _ _ _ hc with h | h
          · omega
          · exact hp.1 c h
  · rcases mem_writeByte _ _ _ _ hc with h | h
    · omega
    · exact hm.2 c h

/-- A write of bytes inside HDR keeps the canonical form. -/
theorem wf_writeBytes (bs : Bytes) (m : Memory) (a : Nat) (hm : m.wf) (ha : a + bs.length ≤ Config.hdrSize) :
    (m.writeBytes a bs).wf := by
  induction bs generalizing m a with
  | nil => exact hm
  | cons v vs ih =>
    simp only [List.length_cons] at ha
    exact ih _ _ (wf_writeByte m a v hm (by omega)) (by omega)

theorem wf_nil : Memory.wf [] := by simp [Memory.wf]

/-- What the header read answers: `n` bytes, byte `i` the one at address `a + i`. -/
theorem readBytes_eq_some (m : Memory) (a n : Nat) (bs : Bytes) :
    m.readBytes a n = some bs ↔ bs.length = n ∧ ∀ i < n, m.readByte (a + i) = bs[i]? := by
  induction n generalizing a bs with
  | zero => simp [Memory.readBytes, @eq_comm _ [] bs]
  | succ n ih =>
    simp only [Memory.readBytes]
    constructor
    · intro h
      cases h1 : m.readByte a with
      | none => simp [h1] at h
      | some v =>
        cases h2 : m.readBytes (a + 1) n with
        | none => simp [h1, h2] at h
        | some vs =>
          simp only [h1, h2, Option.pure_def, Option.bind_eq_bind, Option.bind_some,
            Option.some.injEq] at h
          subst h
          obtain ⟨hl, hr⟩ := (ih _ _).1 h2
          refine ⟨by simp [hl], fun i hi => ?_⟩
          cases i with
          | zero => simp [h1]
          | succ i =>
            have := hr i (by omega)
            rw [show a + (i + 1) = a + 1 + i by omega, this]
            simp
    · rintro ⟨hl, hr⟩
      cases bs with
      | nil => simp at hl
      | cons v vs =>
        have h1 : m.readByte a = some v := by simpa using hr 0 (by omega)
        have h2 : m.readBytes (a + 1) n = some vs := by
          refine (ih _ _).2 ⟨by simpa using hl, fun i hi => ?_⟩
          have := hr (i + 1) (by omega)
          rw [show a + 1 + i = a + (i + 1) by omega, this]
          simp
        simp [h1, h2]

/-- The header string has LENR bytes. -/
theorem length_header {s : State} {m : Bytes} (h : s.header = some m) : m.length = s.lenr.toNat :=
  ((readBytes_eq_some _ _ _ _).1 h).1

/-- The header string depends on HDR and LENR alone. -/
theorem header_congr {s t : State} (h1 : t.hdr = s.hdr) (h2 : t.lenr = s.lenr) : t.header = s.header := by
  simp [State.header, h1, h2]

end Sys2Proof.Machine
end

