-- ==== Sys2Proof/Laws/State.lean ====
section
/-! SUPPORT. What each named update of State changes and what it leaves, one equation a field, so that no later proof
unfolds a record update. -/

namespace Sys2Proof.Machine

/-- `latch` writes OPR and LENR. -/
@[simp] theorem latch_fields (c : BitVec 9) (s : State) :
    (latch c s).chip = s.chip ∧ (latch c s).resets = s.resets ∧
    (latch c s).hdr = s.hdr ∧ (latch c s).diff = s.diff ∧ (latch c s).diffSet = s.diffSet ∧
    (latch c s).brin = s.brin ∧ (latch c s).brinSet = s.brinSet ∧ (latch c s).cmd = s.cmd ∧
    (latch c s).seq = s.seq ∧ (latch c s).status = s.status ∧ (latch c s).faultInfo = s.faultInfo ∧
    (latch c s).h1V = s.h1V ∧ (latch c s).h2V = s.h2V ∧ (latch c s).aux1V = s.aux1V ∧ (latch c s).aux2V = s.aux2V ∧
    (latch c s).aux3V = s.aux3V ∧ (latch c s).kcV = s.kcV ∧ (latch c s).gcV = s.gcV ∧ (latch c s).bcV = s.bcV ∧
    (latch c s).outV = s.outV ∧ (latch c s).tbitsV = s.tbitsV ∧ (latch c s).maskV = s.maskV ∧
    (latch c s).brV = s.brV ∧ (latch c s).h1 = s.h1 ∧ (latch c s).h2 = s.h2 ∧ (latch c s).aux1 = s.aux1 ∧
    (latch c s).aux2 = s.aux2 ∧ (latch c s).aux3 = s.aux3 ∧ (latch c s).out = s.out ∧ (latch c s).tbits = s.tbits ∧
    (latch c s).mask = s.mask ∧ (latch c s).brout = s.brout ∧ (latch c s).kc = s.kc ∧ (latch c s).gc = s.gc ∧
    (latch c s).bc = s.bc ∧ (latch c s).bitCount = s.bitCount ∧ (latch c s).acc = s.acc ∧
    (latch c s).host = s.host ∧ (latch c s).reads = s.reads ∧ (latch c s).engineCalls = s.engineCalls ∧
    (latch c s).opr = cmdOp c ∧ (latch c s).lenr = cmdLen c := by
  repeat' constructor

/-- `send` writes the engine streams. -/
@[simp] theorem send_fields (s : State) (c : EngineCall) :
    (s.send c).chip = s.chip ∧ (s.send c).resets = s.resets ∧
    (s.send c).hdr = s.hdr ∧ (s.send c).diff = s.diff ∧ (s.send c).diffSet = s.diffSet ∧ (s.send c).brin = s.brin ∧
    (s.send c).brinSet = s.brinSet ∧ (s.send c).cmd = s.cmd ∧ (s.send c).opr = s.opr ∧ (s.send c).lenr = s.lenr ∧
    (s.send c).seq = s.seq ∧ (s.send c).status = s.status ∧ (s.send c).faultInfo = s.faultInfo ∧
    (s.send c).h1V = s.h1V ∧ (s.send c).h2V = s.h2V ∧ (s.send c).aux1V = s.aux1V ∧ (s.send c).aux2V = s.aux2V ∧
    (s.send c).aux3V = s.aux3V ∧ (s.send c).kcV = s.kcV ∧ (s.send c).gcV = s.gcV ∧ (s.send c).bcV = s.bcV ∧
    (s.send c).outV = s.outV ∧ (s.send c).tbitsV = s.tbitsV ∧ (s.send c).maskV = s.maskV ∧ (s.send c).brV = s.brV ∧
    (s.send c).h1 = s.h1 ∧ (s.send c).h2 = s.h2 ∧ (s.send c).aux1 = s.aux1 ∧ (s.send c).aux2 = s.aux2 ∧
    (s.send c).aux3 = s.aux3 ∧ (s.send c).out = s.out ∧ (s.send c).tbits = s.tbits ∧ (s.send c).mask = s.mask ∧
    (s.send c).brout = s.brout ∧ (s.send c).kc = s.kc ∧ (s.send c).gc = s.gc ∧ (s.send c).bc = s.bc ∧
    (s.send c).bitCount = s.bitCount ∧ (s.send c).acc = s.acc ∧ (s.send c).host = s.host ∧
    (s.send c).reads = s.reads ∧ (s.send c).engineCalls = s.engineCalls ++ [c] := by
  repeat' constructor

/-- `raiseFault` writes the five fields of R193. -/
@[simp] theorem raiseFault_fields (f : HwFault) (c : BitVec 9) (s : State) :
    (raiseFault f c s).chip = s.chip ∧ (raiseFault f c s).resets = s.resets ∧
    (raiseFault f c s).hdr = s.hdr ∧ (raiseFault f c s).diff = s.diff ∧ (raiseFault f c s).diffSet = s.diffSet ∧
    (raiseFault f c s).brin = s.brin ∧ (raiseFault f c s).brinSet = s.brinSet ∧ (raiseFault f c s).cmd = s.cmd ∧
    (raiseFault f c s).h1V = s.h1V ∧ (raiseFault f c s).h2V = s.h2V ∧ (raiseFault f c s).aux1V = s.aux1V ∧
    (raiseFault f c s).aux2V = s.aux2V ∧ (raiseFault f c s).aux3V = s.aux3V ∧ (raiseFault f c s).kcV = s.kcV ∧
    (raiseFault f c s).gcV = s.gcV ∧ (raiseFault f c s).bcV = s.bcV ∧ (raiseFault f c s).outV = s.outV ∧
    (raiseFault f c s).tbitsV = s.tbitsV ∧ (raiseFault f c s).maskV = s.maskV ∧ (raiseFault f c s).brV = s.brV ∧
    (raiseFault f c s).h1 = s.h1 ∧ (raiseFault f c s).h2 = s.h2 ∧ (raiseFault f c s).aux1 = s.aux1 ∧
    (raiseFault f c s).aux2 = s.aux2 ∧ (raiseFault f c s).aux3 = s.aux3 ∧ (raiseFault f c s).out = s.out ∧
    (raiseFault f c s).tbits = s.tbits ∧ (raiseFault f c s).mask = s.mask ∧ (raiseFault f c s).brout = s.brout ∧
    (raiseFault f c s).kc = s.kc ∧ (raiseFault f c s).gc = s.gc ∧ (raiseFault f c s).bc = s.bc ∧
    (raiseFault f c s).bitCount = s.bitCount ∧ (raiseFault f c s).acc = s.acc ∧ (raiseFault f c s).host = s.host ∧
    (raiseFault f c s).reads = s.reads ∧ (raiseFault f c s).engineCalls = s.engineCalls ∧
    (raiseFault f c s).opr = cmdOp c ∧ (raiseFault f c s).lenr = cmdLen c ∧ (raiseFault f c s).faultInfo = c ∧
    (raiseFault f c s).status = withBusyDone (setBit s.status f.statusBit true) false false ∧
    (raiseFault f c s).seq = Useq.halt := by
  repeat' constructor

/-- `startCommand` writes STATUS and SEQ. -/
@[simp] theorem startCommand_fields (u : BitVec 5) (s : State) :
    (startCommand u s).chip = s.chip ∧ (startCommand u s).resets = s.resets ∧
    (startCommand u s).hdr = s.hdr ∧ (startCommand u s).diff = s.diff ∧ (startCommand u s).diffSet = s.diffSet ∧
    (startCommand u s).brin = s.brin ∧ (startCommand u s).brinSet = s.brinSet ∧ (startCommand u s).cmd = s.cmd ∧
    (startCommand u s).opr = s.opr ∧ (startCommand u s).lenr = s.lenr ∧
    (startCommand u s).faultInfo = s.faultInfo ∧ (startCommand u s).h1V = s.h1V ∧ (startCommand u s).h2V = s.h2V ∧
    (startCommand u s).aux1V = s.aux1V ∧ (startCommand u s).aux2V = s.aux2V ∧ (startCommand u s).aux3V = s.aux3V ∧
    (startCommand u s).kcV = s.kcV ∧ (startCommand u s).gcV = s.gcV ∧ (startCommand u s).bcV = s.bcV ∧
    (startCommand u s).outV = s.outV ∧ (startCommand u s).tbitsV = s.tbitsV ∧ (startCommand u s).maskV = s.maskV ∧
    (startCommand u s).brV = s.brV ∧ (startCommand u s).h1 = s.h1 ∧ (startCommand u s).h2 = s.h2 ∧
    (startCommand u s).aux1 = s.aux1 ∧ (startCommand u s).aux2 = s.aux2 ∧ (startCommand u s).aux3 = s.aux3 ∧
    (startCommand u s).out = s.out ∧ (startCommand u s).tbits = s.tbits ∧ (startCommand u s).mask = s.mask ∧
    (startCommand u s).brout = s.brout ∧ (startCommand u s).kc = s.kc ∧ (startCommand u s).gc = s.gc ∧
    (startCommand u s).bc = s.bc ∧ (startCommand u s).bitCount = s.bitCount ∧ (startCommand u s).acc = s.acc ∧
    (startCommand u s).host = s.host ∧ (startCommand u s).reads = s.reads ∧
    (startCommand u s).engineCalls = s.engineCalls ∧ (startCommand u s).status = withBusyDone s.status true false ∧
    (startCommand u s).seq = u := by
  repeat' constructor

/-- `clearHashFlags` clears nine flags. -/
@[simp] theorem clearHashFlags_fields (s : State) :
    (clearHashFlags s).chip = s.chip ∧ (clearHashFlags s).resets = s.resets ∧
    (clearHashFlags s).hdr = s.hdr ∧ (clearHashFlags s).diff = s.diff ∧ (clearHashFlags s).diffSet = s.diffSet ∧
    (clearHashFlags s).brin = s.brin ∧ (clearHashFlags s).brinSet = s.brinSet ∧ (clearHashFlags s).cmd = s.cmd ∧
    (clearHashFlags s).opr = s.opr ∧ (clearHashFlags s).lenr = s.lenr ∧ (clearHashFlags s).seq = s.seq ∧
    (clearHashFlags s).status = s.status ∧ (clearHashFlags s).faultInfo = s.faultInfo ∧
    (clearHashFlags s).tbitsV = s.tbitsV ∧ (clearHashFlags s).maskV = s.maskV ∧ (clearHashFlags s).brV = s.brV ∧
    (clearHashFlags s).h1 = s.h1 ∧ (clearHashFlags s).h2 = s.h2 ∧ (clearHashFlags s).aux1 = s.aux1 ∧
    (clearHashFlags s).aux2 = s.aux2 ∧ (clearHashFlags s).aux3 = s.aux3 ∧ (clearHashFlags s).out = s.out ∧
    (clearHashFlags s).tbits = s.tbits ∧ (clearHashFlags s).mask = s.mask ∧ (clearHashFlags s).brout = s.brout ∧
    (clearHashFlags s).kc = s.kc ∧ (clearHashFlags s).gc = s.gc ∧ (clearHashFlags s).bc = s.bc ∧
    (clearHashFlags s).bitCount = s.bitCount ∧ (clearHashFlags s).acc = s.acc ∧ (clearHashFlags s).host = s.host ∧
    (clearHashFlags s).reads = s.reads ∧ (clearHashFlags s).engineCalls = s.engineCalls ∧
    (clearHashFlags s).h1V = false ∧ (clearHashFlags s).h2V = false ∧ (clearHashFlags s).aux1V = false ∧
    (clearHashFlags s).aux2V = false ∧ (clearHashFlags s).aux3V = false ∧ (clearHashFlags s).kcV = false ∧
    (clearHashFlags s).gcV = false ∧ (clearHashFlags s).bcV = false ∧ (clearHashFlags s).outV = false := by
  repeat' constructor

/-- `clearMaskFlags` clears two flags. -/
@[simp] theorem clearMaskFlags_fields (s : State) :
    (clearMaskFlags s).chip = s.chip ∧ (clearMaskFlags s).resets = s.resets ∧
    (clearMaskFlags s).hdr = s.hdr ∧ (clearMaskFlags s).diff = s.diff ∧ (clearMaskFlags s).diffSet = s.diffSet ∧
    (clearMaskFlags s).brin = s.brin ∧ (clearMaskFlags s).brinSet = s.brinSet ∧ (clearMaskFlags s).cmd = s.cmd ∧
    (clearMaskFlags s).opr = s.opr ∧ (clearMaskFlags s).lenr = s.lenr ∧ (clearMaskFlags s).seq = s.seq ∧
    (clearMaskFlags s).status = s.status ∧ (clearMaskFlags s).faultInfo = s.faultInfo ∧
    (clearMaskFlags s).h1V = s.h1V ∧ (clearMaskFlags s).h2V = s.h2V ∧ (clearMaskFlags s).aux1V = s.aux1V ∧
    (clearMaskFlags s).aux2V = s.aux2V ∧ (clearMaskFlags s).aux3V = s.aux3V ∧ (clearMaskFlags s).kcV = s.kcV ∧
    (clearMaskFlags s).gcV = s.gcV ∧ (clearMaskFlags s).bcV = s.bcV ∧ (clearMaskFlags s).outV = s.outV ∧
    (clearMaskFlags s).brV = s.brV ∧ (clearMaskFlags s).h1 = s.h1 ∧ (clearMaskFlags s).h2 = s.h2 ∧
    (clearMaskFlags s).aux1 = s.aux1 ∧ (clearMaskFlags s).aux2 = s.aux2 ∧ (clearMaskFlags s).aux3 = s.aux3 ∧
    (clearMaskFlags s).out = s.out ∧ (clearMaskFlags s).tbits = s.tbits ∧ (clearMaskFlags s).mask = s.mask ∧
    (clearMaskFlags s).brout = s.brout ∧ (clearMaskFlags s).kc = s.kc ∧ (clearMaskFlags s).gc = s.gc ∧
    (clearMaskFlags s).bc = s.bc ∧ (clearMaskFlags s).bitCount = s.bitCount ∧ (clearMaskFlags s).acc = s.acc ∧
    (clearMaskFlags s).host = s.host ∧ (clearMaskFlags s).reads = s.reads ∧
    (clearMaskFlags s).engineCalls = s.engineCalls ∧ (clearMaskFlags s).tbitsV = false ∧
    (clearMaskFlags s).maskV = false := by
  repeat' constructor

/-- `clearRevFlag` clears one flag. -/
@[simp] theorem clearRevFlag_fields (s : State) :
    (clearRevFlag s).chip = s.chip ∧ (clearRevFlag s).resets = s.resets ∧
    (clearRevFlag s).hdr = s.hdr ∧ (clearRevFlag s).diff = s.diff ∧ (clearRevFlag s).diffSet = s.diffSet ∧
    (clearRevFlag s).brin = s.brin ∧ (clearRevFlag s).brinSet = s.brinSet ∧ (clearRevFlag s).cmd = s.cmd ∧
    (clearRevFlag s).opr = s.opr ∧ (clearRevFlag s).lenr = s.lenr ∧ (clearRevFlag s).seq = s.seq ∧
    (clearRevFlag s).status = s.status ∧ (clearRevFlag s).faultInfo = s.faultInfo ∧ (clearRevFlag s).h1V = s.h1V ∧
    (clearRevFlag s).h2V = s.h2V ∧ (clearRevFlag s).aux1V = s.aux1V ∧ (clearRevFlag s).aux2V = s.aux2V ∧
    (clearRevFlag s).aux3V = s.aux3V ∧ (clearRevFlag s).kcV = s.kcV ∧ (clearRevFlag s).gcV = s.gcV ∧
    (clearRevFlag s).bcV = s.bcV ∧ (clearRevFlag s).outV = s.outV ∧ (clearRevFlag s).tbitsV = s.tbitsV ∧
    (clearRevFlag s).maskV = s.maskV ∧ (clearRevFlag s).h1 = s.h1 ∧ (clearRevFlag s).h2 = s.h2 ∧
    (clearRevFlag s).aux1 = s.aux1 ∧ (clearRevFlag s).aux2 = s.aux2 ∧ (clearRevFlag s).aux3 = s.aux3 ∧
    (clearRevFlag s).out = s.out ∧ (clearRevFlag s).tbits = s.tbits ∧ (clearRevFlag s).mask = s.mask ∧
    (clearRevFlag s).brout = s.brout ∧ (clearRevFlag s).kc = s.kc ∧ (clearRevFlag s).gc = s.gc ∧
    (clearRevFlag s).bc = s.bc ∧ (clearRevFlag s).bitCount = s.bitCount ∧ (clearRevFlag s).acc = s.acc ∧
    (clearRevFlag s).host = s.host ∧ (clearRevFlag s).reads = s.reads ∧
    (clearRevFlag s).engineCalls = s.engineCalls ∧ (clearRevFlag s).brV = false := by
  repeat' constructor

/-- `setFlag` writes valid flags only. -/
@[simp] theorem setFlag_fields (s : State) (f : Flag) (b : Bool) :
    (s.setFlag f b).chip = s.chip ∧ (s.setFlag f b).resets = s.resets ∧
    (s.setFlag f b).hdr = s.hdr ∧ (s.setFlag f b).diff = s.diff ∧ (s.setFlag f b).diffSet = s.diffSet ∧
    (s.setFlag f b).brin = s.brin ∧ (s.setFlag f b).brinSet = s.brinSet ∧ (s.setFlag f b).cmd = s.cmd ∧
    (s.setFlag f b).opr = s.opr ∧ (s.setFlag f b).lenr = s.lenr ∧ (s.setFlag f b).seq = s.seq ∧
    (s.setFlag f b).status = s.status ∧ (s.setFlag f b).faultInfo = s.faultInfo ∧ (s.setFlag f b).h1 = s.h1 ∧
    (s.setFlag f b).h2 = s.h2 ∧ (s.setFlag f b).aux1 = s.aux1 ∧ (s.setFlag f b).aux2 = s.aux2 ∧
    (s.setFlag f b).aux3 = s.aux3 ∧ (s.setFlag f b).out = s.out ∧ (s.setFlag f b).tbits = s.tbits ∧
    (s.setFlag f b).mask = s.mask ∧ (s.setFlag f b).brout = s.brout ∧ (s.setFlag f b).kc = s.kc ∧
    (s.setFlag f b).gc = s.gc ∧ (s.setFlag f b).bc = s.bc ∧ (s.setFlag f b).bitCount = s.bitCount ∧
    (s.setFlag f b).acc = s.acc ∧ (s.setFlag f b).host = s.host ∧ (s.setFlag f b).reads = s.reads ∧
    (s.setFlag f b).engineCalls = s.engineCalls := by
  cases f <;> repeat' constructor

/-- `writeAux` writes auxiliary digests and their flags only. -/
@[simp] theorem writeAux_fields (s : State) (a : AuxSlot) (d : Vector Word 16) :
    (s.writeAux a d).chip = s.chip ∧ (s.writeAux a d).resets = s.resets ∧
    (s.writeAux a d).hdr = s.hdr ∧ (s.writeAux a d).diff = s.diff ∧ (s.writeAux a d).diffSet = s.diffSet ∧
    (s.writeAux a d).brin = s.brin ∧ (s.writeAux a d).brinSet = s.brinSet ∧ (s.writeAux a d).cmd = s.cmd ∧
    (s.writeAux a d).opr = s.opr ∧ (s.writeAux a d).lenr = s.lenr ∧ (s.writeAux a d).seq = s.seq ∧
    (s.writeAux a d).status = s.status ∧ (s.writeAux a d).faultInfo = s.faultInfo ∧ (s.writeAux a d).h1V = s.h1V ∧
    (s.writeAux a d).h2V = s.h2V ∧ (s.writeAux a d).kcV = s.kcV ∧ (s.writeAux a d).gcV = s.gcV ∧
    (s.writeAux a d).bcV = s.bcV ∧ (s.writeAux a d).outV = s.outV ∧ (s.writeAux a d).tbitsV = s.tbitsV ∧
    (s.writeAux a d).maskV = s.maskV ∧ (s.writeAux a d).brV = s.brV ∧ (s.writeAux a d).h1 = s.h1 ∧
    (s.writeAux a d).h2 = s.h2 ∧ (s.writeAux a d).out = s.out ∧ (s.writeAux a d).tbits = s.tbits ∧
    (s.writeAux a d).mask = s.mask ∧ (s.writeAux a d).brout = s.brout ∧ (s.writeAux a d).kc = s.kc ∧
    (s.writeAux a d).gc = s.gc ∧ (s.writeAux a d).bc = s.bc ∧ (s.writeAux a d).bitCount = s.bitCount ∧
    (s.writeAux a d).acc = s.acc ∧ (s.writeAux a d).host = s.host ∧ (s.writeAux a d).reads = s.reads ∧
    (s.writeAux a d).engineCalls = s.engineCalls := by
  cases a <;> repeat' constructor

/-- `advance` writes STATUS and SEQ; SEQ takes the successor. -/
@[simp] theorem advance_fields (u : BitVec 5) (s : State) :
    (advance u s).chip = s.chip ∧ (advance u s).resets = s.resets ∧
    (advance u s).hdr = s.hdr ∧ (advance u s).diff = s.diff ∧ (advance u s).diffSet = s.diffSet ∧
    (advance u s).brin = s.brin ∧ (advance u s).brinSet = s.brinSet ∧ (advance u s).cmd = s.cmd ∧
    (advance u s).opr = s.opr ∧ (advance u s).lenr = s.lenr ∧ (advance u s).faultInfo = s.faultInfo ∧
    (advance u s).h1V = s.h1V ∧ (advance u s).h2V = s.h2V ∧ (advance u s).aux1V = s.aux1V ∧
    (advance u s).aux2V = s.aux2V ∧ (advance u s).aux3V = s.aux3V ∧ (advance u s).kcV = s.kcV ∧
    (advance u s).gcV = s.gcV ∧ (advance u s).bcV = s.bcV ∧ (advance u s).outV = s.outV ∧
    (advance u s).tbitsV = s.tbitsV ∧ (advance u s).maskV = s.maskV ∧ (advance u s).brV = s.brV ∧
    (advance u s).h1 = s.h1 ∧ (advance u s).h2 = s.h2 ∧ (advance u s).aux1 = s.aux1 ∧ (advance u s).aux2 = s.aux2 ∧
    (advance u s).aux3 = s.aux3 ∧ (advance u s).out = s.out ∧ (advance u s).tbits = s.tbits ∧
    (advance u s).mask = s.mask ∧ (advance u s).brout = s.brout ∧ (advance u s).kc = s.kc ∧
    (advance u s).gc = s.gc ∧ (advance u s).bc = s.bc ∧ (advance u s).bitCount = s.bitCount ∧
    (advance u s).acc = s.acc ∧ (advance u s).host = s.host ∧ (advance u s).reads = s.reads ∧
    (advance u s).engineCalls = s.engineCalls ∧ (advance u s).seq = successor u := by
  unfold advance; split <;> simp_all

/-- Reading the flag that `setFlag` wrote, or another. -/
@[simp] theorem flag_setFlag (s : State) (f g : Flag) (b : Bool) :
    (s.setFlag f b).flag g = if g = f then b else s.flag g := by
  cases f <;> cases g <;> rfl

/-- `resetBlock` is the reset state but for the host's own fields, which instance it is, and the count of resets. -/
theorem resetBlock_eq (s : State) :
    resetBlock s = { State.reset with host := s.host, reads := s.reads, chip := s.chip, resets := s.resets + 1 } := rfl

end Sys2Proof.Machine
end

