-- ==== Sys2Proof/Laws/Ops.lean ====
section
/-! SUPPORT. One lemma for each shared operation, saying all it can do. -/

namespace Sys2Proof.Machine

/-- The four fields of STATUS after `withBusyDone`. -/
@[simp] theorem getLsbD_withBusyDone (st : BitVec 8) (b d : Bool) (i : Nat) :
    (withBusyDone st b d).getLsbD i = if i = 1 then d else if i = 0 then b else st.getLsbD i := by
  unfold withBusyDone
  rw [getLsbD_setBit]
  by_cases h1 : i = 1
  · simp [h1]
  · by_cases h0 : i = 0
    · simp [h0]
    · simp [h0, h1]

/-- The successors of R97. -/
theorem successor_table :
    successor Useq.hHefty = Useq.hSha ∧ successor Useq.hSha = Useq.hKInit ∧
    successor Useq.hKInit = Useq.hKUpdIn ∧ successor Useq.hKUpdIn = Useq.hKUpdH1 ∧
    successor Useq.hKUpdH1 = Useq.hKFin ∧ successor Useq.hKFin = Useq.hGInit ∧
    successor Useq.hGInit = Useq.hGUpdIn ∧ successor Useq.hGUpdIn = Useq.hGUpdH1 ∧
    successor Useq.hGUpdH1 = Useq.hGFin ∧ successor Useq.hGFin = Useq.hBInit ∧
    successor Useq.hBInit = Useq.hBUpdIn ∧ successor Useq.hBUpdIn = Useq.hBUpdH1 ∧
    successor Useq.hBUpdH1 = Useq.hBFin ∧ successor Useq.hBFin = Useq.hCombine ∧
    successor Useq.hCombine = Useq.idle ∧ successor Useq.mTbits = Useq.mMasks ∧
    successor Useq.mMasks = Useq.idle ∧ successor Useq.rRev = Useq.idle := by decide

/-- A micro-operation that is not the last of its command only moves SEQ. -/
theorem advance_of_ne {u : BitVec 5} (h : successor u ≠ Useq.idle) (s : State) :
    advance u s = { s with seq := successor u } := if_neg h

/-- The last micro-operation of a command ends it. -/
theorem advance_of_last {u : BitVec 5} (h : successor u = Useq.idle) (s : State) :
    advance u s = { s with status := withBusyDone s.status false true, seq := Useq.idle } := if_pos h

/-- STATUS when a command starts (R94). -/
theorem withBusyDone_start (st : BitVec 8) : withBusyDone st true false = (st ||| 0x01) &&& ~~~0x02 := by
  revert st; decide

/-- STATUS when a command ends (R97). -/
theorem withBusyDone_finish (st : BitVec 8) : withBusyDone st false true = (st ||| 0x02) &&& ~~~0x01 := by
  revert st; decide

/-- STATUS after the length fault (R193). -/
theorem withBusyDone_errLen (st : BitVec 8) :
    withBusyDone (setBit st 2 true) false false = (st ||| 0x04) &&& ~~~0x03 := by
  revert st; decide

/-- STATUS after the reserved-command fault (R193). -/
theorem withBusyDone_errOp (st : BitVec 8) :
    withBusyDone (setBit st 3 true) false false = (st ||| 0x08) &&& ~~~0x03 := by
  revert st; decide

/-- The end of each micro-operation (R97). -/
theorem advance_table (s : State) :
    advance Useq.hHefty s = { s with seq := Useq.hSha } ∧
    advance Useq.hSha s = { s with seq := Useq.hKInit } ∧
    advance Useq.hKInit s = { s with seq := Useq.hKUpdIn } ∧
    advance Useq.hKUpdIn s = { s with seq := Useq.hKUpdH1 } ∧
    advance Useq.hKUpdH1 s = { s with seq := Useq.hKFin } ∧
    advance Useq.hKFin s = { s with seq := Useq.hGInit } ∧
    advance Useq.hGInit s = { s with seq := Useq.hGUpdIn } ∧
    advance Useq.hGUpdIn s = { s with seq := Useq.hGUpdH1 } ∧
    advance Useq.hGUpdH1 s = { s with seq := Useq.hGFin } ∧
    advance Useq.hGFin s = { s with seq := Useq.hBInit } ∧
    advance Useq.hBInit s = { s with seq := Useq.hBUpdIn } ∧
    advance Useq.hBUpdIn s = { s with seq := Useq.hBUpdH1 } ∧
    advance Useq.hBUpdH1 s = { s with seq := Useq.hBFin } ∧
    advance Useq.hBFin s = { s with seq := Useq.hCombine } ∧
    advance Useq.hCombine s = { s with status := (s.status ||| 0x02) &&& ~~~0x01, seq := Useq.idle } ∧
    advance Useq.mTbits s = { s with seq := Useq.mMasks } ∧
    advance Useq.mMasks s = { s with status := (s.status ||| 0x02) &&& ~~~0x01, seq := Useq.idle } ∧
    advance Useq.rRev s = { s with status := (s.status ||| 0x02) &&& ~~~0x01, seq := Useq.idle } := by
  simp only [advance, withBusyDone_finish]
  refine ⟨?_, ?_, ?_, ?_, ?_, ?_, ?_, ?_, ?_, ?_, ?_, ?_, ?_, ?_, ?_, ?_, ?_, ?_⟩ <;> rfl

/-- `withHeader` goes on, or stops for one of its two reasons. -/
theorem withHeader_of {s : State} {m : Bytes} (hl : s.lenr.toNat ≤ Config.hdrSize) (h : s.header = some m)
    (k : Bytes → Out) : withHeader s k = k m := by
  simp [withHeader, Nat.not_lt.2 hl, h]

theorem withHeader_next {s t : State} {k : Bytes → Out} :
    withHeader s k = .next t ↔
      s.lenr.toNat ≤ Config.hdrSize ∧ ∃ m, s.header = some m ∧ k m = .next t := by
  unfold withHeader
  by_cases hl : Config.hdrSize < s.lenr.toNat
  · simp [hl, Nat.not_le.2 hl]
  · cases h : s.header <;> simp [hl, Nat.not_lt.1 hl]

@[simp] theorem valueOf_true {α : Type} (v : α) (free : α → α) : valueOf true v free = v := rfl

@[simp] theorem valueOf_false {α : Type} (v : α) (free : α → α) : valueOf false v free = free v := rfl

/-- A register that holds a value is read as it stands. -/
theorem value_of_holds (s : State) :
    (s.diffSet = true → s.diffValue = s.diff) ∧
    (s.brinSet = true → s.brinValue = s.brin) ∧
    (s.h1V = true → s.h1Value = s.h1) ∧
    (s.h2V = true → s.h2Value = s.h2) ∧
    (s.aux1V = true → s.aux1Value = s.aux1) ∧
    (s.aux2V = true → s.aux2Value = s.aux2) ∧
    (s.aux3V = true → s.aux3Value = s.aux3) ∧
    (s.tbitsV = true → s.tbitsValue = s.tbits) ∧
    (s.kcV = true → s.kcValue = s.kc) ∧
    (s.gcV = true → s.gcValue = s.gc) ∧
    (s.bcV = true → s.bcValue = s.bc) := by
  refine ⟨?_, ?_, ?_, ?_, ?_, ?_, ?_, ?_, ?_, ?_, ?_⟩ <;> exact fun h => if_pos h

/-- A register that holds no value is read as a free value. -/
theorem value_of_not_holds (s : State) :
    (s.diffSet = false → s.diffValue = s.noValue.diff s.diff) ∧
    (s.brinSet = false → s.brinValue = s.noValue.brin s.brin) ∧
    (s.h1V = false → s.h1Value = s.noValue.h1 s.h1) ∧
    (s.h2V = false → s.h2Value = s.noValue.h2 s.h2) ∧
    (s.aux1V = false → s.aux1Value = s.noValue.aux1 s.aux1) ∧
    (s.aux2V = false → s.aux2Value = s.noValue.aux2 s.aux2) ∧
    (s.aux3V = false → s.aux3Value = s.noValue.aux3 s.aux3) ∧
    (s.tbitsV = false → s.tbitsValue = s.noValue.tbits s.tbits) ∧
    (s.kcV = false → s.kcValue = s.noValue.kc s.kc) ∧
    (s.gcV = false → s.gcValue = s.noValue.gc s.gc) ∧
    (s.bcV = false → s.bcValue = s.noValue.bc s.bc) := by
  refine ⟨?_, ?_, ?_, ?_, ?_, ?_, ?_, ?_, ?_, ?_, ?_⟩ <;> exact fun h => if_neg (by simp [h])

/-- A command word is taken at IDLE and changes nothing otherwise. -/
theorem acceptCommand_next {c : BitVec 9} {body : State → State} {s t : State} :
    acceptCommand c body s = .next t ↔
      (s.seq = Useq.idle ∧ t = body (latch c s)) ∨ (s.seq ≠ Useq.idle ∧ t = s) := by
  unfold acceptCommand
  by_cases h : s.seq = Useq.idle
  · rw [if_pos h]; simp [show s.seq = 0#5 from h, @eq_comm _ t]
  · rw [if_neg h]; simp [show ¬ s.seq = 0#5 from h, @eq_comm _ t]

@[simp] theorem cmdOp_cmdWord (len : BitVec 7) (op : BitVec 2) : cmdOp (cmdWord len op) = op := by
  apply BitVec.eq_of_getLsbD_eq
  intro i hi
  have h : (cmdWord len op).getLsbD i = op.getLsbD i := by
    rw [cmdWord, BitVec.getLsbD_append (x := len) (y := op)]
    simp [hi]
  simp [cmdOp, hi, h]

@[simp] theorem cmdLen_cmdWord (len : BitVec 7) (op : BitVec 2) : cmdLen (cmdWord len op) = len := by
  apply BitVec.eq_of_getLsbD_eq
  intro i hi
  have h : (cmdWord len op).getLsbD (2 + i) = len.getLsbD i := by
    rw [cmdWord, BitVec.getLsbD_append (x := len) (y := op)]
    simp [show ¬ 2 + i < 2 by omega]
  simp [cmdLen, hi, h]

@[simp] theorem legalLen_iff (len : BitVec 7) : legalLen len = true ↔ len = 80 ∨ len = 84 := by
  simp [legalLen]

end Sys2Proof.Machine
end

