-- ==== Sys2Proof/Laws/Exec.lean ====
section
/-! SUPPORT. What each meaning can do, once: when it answers a next state, and which one. Later proofs about steps cite
these and do not unfold a meaning. -/

namespace Sys2Proof.Machine

theorem execHHefty_next {s t : State} :
    execHHefty s = .next t ↔ s.lenr.toNat ≤ Config.hdrSize ∧ ∃ m, s.header = some m ∧
      t = { s with
        h1 := Config.engines.hefty1 m, h1V := true, seq := Useq.hSha,
        engineCalls := s.engineCalls ++ [.hefty1 m] } := by
  simp only [execHHefty, heftyWith, withHeader_next, advance_table, Host.Outcome.next.injEq, @eq_comm _ t]
  rfl

theorem execHSha_next {s t : State} :
    execHSha s = .next t ↔ s.lenr.toNat ≤ Config.hdrSize ∧ ∃ m, s.header = some m ∧
      t = { s with
        h2 := words8 (Config.engines.sha256 (m ++ s.h1Value.toList)), h2V := true, seq := Useq.hKInit,
        engineCalls := s.engineCalls ++ [.sha256 (m ++ s.h1Value.toList)] } := by
  simp only [execHSha, shaWith, withHeader_next, advance_table, Host.Outcome.next.injEq, @eq_comm _ t]
  rfl

theorem execHKInit_next {s t : State} :
    execHKInit s = .next t ↔
      t = { s with
        kc := Config.engines.keccak512.init, kcV := true, seq := Useq.hKUpdIn,
        engineCalls := s.engineCalls ++ [.init .keccak] } := by
  simp only [execHKInit, ctxInit, portK, advance_table, Host.Outcome.next.injEq, @eq_comm _ t]
  rfl

theorem execHKUpdIn_next {s t : State} :
    execHKUpdIn s = .next t ↔ s.lenr.toNat ≤ Config.hdrSize ∧ ∃ m, s.header = some m ∧
      t = { s with
        kc := Config.engines.keccak512.update s.kcValue m, seq := Useq.hKUpdH1,
        engineCalls := s.engineCalls ++ [.update .keccak m] } := by
  simp only [execHKUpdIn, ctxUpdateHeader, ctxUpdate, portK, withHeader_next, advance_table,
    Host.Outcome.next.injEq, @eq_comm _ t]
  rfl

theorem execHKUpdH1_next {s t : State} :
    execHKUpdH1 s = .next t ↔
      t = { s with
        kc := Config.engines.keccak512.update s.kcValue s.h1Value.toList, seq := Useq.hKFin,
        engineCalls := s.engineCalls ++ [.update .keccak s.h1Value.toList] } := by
  simp only [execHKUpdH1, ctxUpdateH1, ctxUpdate, portK, advance_table, Host.Outcome.next.injEq, @eq_comm _ t]
  rfl

theorem execHKFin_next {s t : State} :
    execHKFin s = .next t ↔
      t = { s with
        aux1 := words16 (Config.engines.keccak512.finalize s.kcValue), aux1V := true, kcV := false, seq := Useq.hGInit,
        engineCalls := s.engineCalls ++ [.finalize .keccak] } := by
  simp only [execHKFin, ctxFinalize, portK, advance_table, Host.Outcome.next.injEq, @eq_comm _ t]
  rfl

theorem execHGInit_next {s t : State} :
    execHGInit s = .next t ↔
      t = { s with
        gc := Config.engines.groestl512.init, gcV := true, seq := Useq.hGUpdIn,
        engineCalls := s.engineCalls ++ [.init .groestl] } := by
  simp only [execHGInit, ctxInit, portG, advance_table, Host.Outcome.next.injEq, @eq_comm _ t]
  rfl

theorem execHGUpdIn_next {s t : State} :
    execHGUpdIn s = .next t ↔ s.lenr.toNat ≤ Config.hdrSize ∧ ∃ m, s.header = some m ∧
      t = { s with
        gc := Config.engines.groestl512.update s.gcValue m, seq := Useq.hGUpdH1,
        engineCalls := s.engineCalls ++ [.update .groestl m] } := by
  simp only [execHGUpdIn, ctxUpdateHeader, ctxUpdate, portG, withHeader_next, advance_table,
    Host.Outcome.next.injEq, @eq_comm _ t]
  rfl

theorem execHGUpdH1_next {s t : State} :
    execHGUpdH1 s = .next t ↔
      t = { s with
        gc := Config.engines.groestl512.update s.gcValue s.h1Value.toList, seq := Useq.hGFin,
        engineCalls := s.engineCalls ++ [.update .groestl s.h1Value.toList] } := by
  simp only [execHGUpdH1, ctxUpdateH1, ctxUpdate, portG, advance_table, Host.Outcome.next.injEq, @eq_comm _ t]
  rfl

theorem execHGFin_next {s t : State} :
    execHGFin s = .next t ↔
      t = { s with
        aux2 := words16 (Config.engines.groestl512.finalize s.gcValue), aux2V := true, gcV := false, seq := Useq.hBInit,
        engineCalls := s.engineCalls ++ [.finalize .groestl] } := by
  simp only [execHGFin, ctxFinalize, portG, advance_table, Host.Outcome.next.injEq, @eq_comm _ t]
  rfl

theorem execHBInit_next {s t : State} :
    execHBInit s = .next t ↔
      t = { s with
        bc := Config.engines.blake512.init, bcV := true, seq := Useq.hBUpdIn,
        engineCalls := s.engineCalls ++ [.init .blake] } := by
  simp only [execHBInit, ctxInit, portB, advance_table, Host.Outcome.next.injEq, @eq_comm _ t]
  rfl

theorem execHBUpdIn_next {s t : State} :
    execHBUpdIn s = .next t ↔ s.lenr.toNat ≤ Config.hdrSize ∧ ∃ m, s.header = some m ∧
      t = { s with
        bc := Config.engines.blake512.update s.bcValue m, seq := Useq.hBUpdH1,
        engineCalls := s.engineCalls ++ [.update .blake m] } := by
  simp only [execHBUpdIn, ctxUpdateHeader, ctxUpdate, portB, withHeader_next, advance_table,
    Host.Outcome.next.injEq, @eq_comm _ t]
  rfl

theorem execHBUpdH1_next {s t : State} :
    execHBUpdH1 s = .next t ↔
      t = { s with
        bc := Config.engines.blake512.update s.bcValue s.h1Value.toList, seq := Useq.hBFin,
        engineCalls := s.engineCalls ++ [.update .blake s.h1Value.toList] } := by
  simp only [execHBUpdH1, ctxUpdateH1, ctxUpdate, portB, advance_table, Host.Outcome.next.injEq, @eq_comm _ t]
  rfl

theorem execHBFin_next {s t : State} :
    execHBFin s = .next t ↔
      t = { s with
        aux3 := words16 (Config.engines.blake512.finalize s.bcValue), aux3V := true, bcV := false, seq := Useq.hCombine,
        engineCalls := s.engineCalls ++ [.finalize .blake] } := by
  simp only [execHBFin, ctxFinalize, portB, advance_table, Host.Outcome.next.injEq, @eq_comm _ t]
  rfl

theorem execHCombine_next {s t : State} :
    execHCombine s = .next t ↔
      t = { s with
        out := combine s.sources, outV := true, acc := (combineSerial s.sources).1,
        bitCount := BitVec.ofNat 9 (combineSerial s.sources).2,
        status := (s.status ||| 0x02) &&& ~~~0x01, seq := Useq.idle } := by
  simp only [execHCombine, advance_table, Host.Outcome.next.injEq, @eq_comm _ t]

theorem execMTbits_next {s t : State} :
    execMTbits s = .next t ↔
      t = { s with
        tbits := BitVec.ofNat 11 (deriveTbits s.diffValue), tbitsV := true,
        seq := Useq.mMasks } := by
  simp only [execMTbits, advance_table, Host.Outcome.next.injEq, @eq_comm _ t]

theorem execMMasks_next {s t : State} :
    execMMasks s = .next t ↔
      t = { s with
        mask := deriveMasks s.tbitsValue.toNat, maskV := true,
        status := (s.status ||| 0x02) &&& ~~~0x01, seq := Useq.idle } := by
  simp only [execMMasks, advance_table, Host.Outcome.next.injEq, @eq_comm _ t]

theorem execRRev_next {s t : State} :
    execRRev s = .next t ↔
      t = { s with
        brout := bitrev32 s.brinValue, brV := true,
        status := (s.status ||| 0x02) &&& ~~~0x01, seq := Useq.idle } := by
  simp only [execRRev, advance_table, Host.Outcome.next.injEq, @eq_comm _ t]

/-- A command word whose acceptance does `body` (R94): at IDLE one next state, otherwise no change. -/
theorem execHash_next {len : BitVec 7} {s t : State} :
    execHash len s = .next t ↔
      (s.seq = Useq.idle ∧ t =
        if len = 80 ∨ len = 84 then
          { s with
            opr := Op.hash, lenr := len, h1V := false, h2V := false, aux1V := false, aux2V := false,
            aux3V := false, kcV := false, gcV := false, bcV := false, outV := false,
            status := (s.status ||| 0x01) &&& ~~~0x02, seq := Useq.hHefty }
        else
          { s with
            opr := Op.hash, lenr := len, faultInfo := cmdWord len Op.hash,
            status := (s.status ||| 0x04) &&& ~~~0x03, seq := Useq.halt }) ∨
      (s.seq ≠ Useq.idle ∧ t = s) := by
  rw [execHash, acceptCommand_next]
  simp only [beginHash, legalLen_iff, latch, startCommand, clearHashFlags, raiseFault, HwFault.statusBit,
    cmdOp_cmdWord, cmdLen_cmdWord, withBusyDone_start, withBusyDone_errLen]

theorem execDeriveMasks_next {len : BitVec 7} {s t : State} :
    execDeriveMasks len s = .next t ↔
      (s.seq = Useq.idle ∧ t =
        { s with
          opr := Op.deriveMasks, lenr := len, tbitsV := false, maskV := false,
          status := (s.status ||| 0x01) &&& ~~~0x02, seq := Useq.mTbits }) ∨
      (s.seq ≠ Useq.idle ∧ t = s) := by
  rw [execDeriveMasks, acceptCommand_next]
  simp only [latch, startCommand, clearMaskFlags, cmdOp_cmdWord, cmdLen_cmdWord, withBusyDone_start]

theorem execBitrev32_next {len : BitVec 7} {s t : State} :
    execBitrev32 len s = .next t ↔
      (s.seq = Useq.idle ∧ t =
        { s with
          opr := Op.bitrev32, lenr := len, brV := false,
          status := (s.status ||| 0x01) &&& ~~~0x02, seq := Useq.rRev }) ∨
      (s.seq ≠ Useq.idle ∧ t = s) := by
  rw [execBitrev32, acceptCommand_next]
  simp only [latch, startCommand, clearRevFlag, cmdOp_cmdWord, cmdLen_cmdWord, withBusyDone_start]

theorem execReservedOp0_next {len : BitVec 7} {s t : State} :
    execReservedOp0 len s = .next t ↔
      (s.seq = Useq.idle ∧ t =
        { s with
          opr := Op.reserved, lenr := len, faultInfo := cmdWord len Op.reserved,
          status := (s.status ||| 0x08) &&& ~~~0x03, seq := Useq.halt }) ∨
      (s.seq ≠ Useq.idle ∧ t = s) := by
  rw [execReservedOp0, acceptCommand_next]
  simp only [latch, raiseFault, HwFault.statusBit, cmdOp_cmdWord, cmdLen_cmdWord, withBusyDone_errOp]

end Sys2Proof.Machine
end

