-- ==== Sys2Proof/Laws/Float.lean ====
section
/-! SUPPORT. The fields of DIFF, its normal form and its rounding, at the format the spec takes (binary64), in the
numbers spec/42_maskderiver.md R164 and R171 write. -/

namespace Sys2Proof.Machine

/-- `DIFF[62:52]` (R171). -/
theorem expOf_eq (d : BitVec 64) : expOf d = (d.extractLsb' 52 11).toNat := rfl

/-- `DIFF[51:0]` (R171). -/
theorem fracOf_eq (d : BitVec 64) : fracOf d = (d.extractLsb' 0 52).toNat := rfl

/-- The class positive finite of R171. -/
theorem positiveFinite_iff (d : BitVec 64) :
    positiveFinite d = true ↔ d.getLsbD 63 = false ∧ expOf d ≠ 2047 ∧ ¬ (expOf d = 0 ∧ fracOf d = 0) := by
  have hc : classIn Config.diffFormat d =
      if expOf d = 2047 then (if fracOf d = 0 then .infinite else .nan)
      else if expOf d = 0 ∧ fracOf d = 0 then .zero else .finite := rfl
  have hs : signIn Config.diffFormat d = d.getLsbD 63 := rfl
  simp only [positiveFinite, positiveFiniteIn, hc, hs]
  split
  · split <;> simp [*]
  · split <;> simp [*]

/-- The rounding test of R164's algorithm, with its constant. -/
theorem roundsDown_binary64 (M : Nat) : roundsDown .binary64 M = true ↔ M ≤ 6369051672525772 := by
  have hpow : 2 ^ (2 * FloatFormat.binary64.fracBits + 1) = 40564819207303340847894502572032 := by
    norm_num [FloatFormat.binary64]
  rw [roundsDown, hpow, decide_eq_true_iff]
  constructor
  · intro h
    by_contra hn
    have := Nat.mul_le_mul (Nat.not_le.1 hn) (Nat.not_le.1 hn)
    omega
  · intro h
    have := Nat.mul_le_mul h h
    omega

/-- The normal form of a normal pattern (R164). -/
theorem normaliseIn_normal {d : BitVec 64} (h : 1 ≤ expOf d) :
    normaliseIn Config.diffFormat d = (2 ^ 52 + fracOf d, (expOf d : Int) - 1023) := if_pos h

/-- The normal form of a subnormal pattern (R164). -/
theorem normaliseIn_subnormal {d : BitVec 64} (h : ¬ 1 ≤ expOf d) :
    normaliseIn Config.diffFormat d =
      (fracOf d * 2 ^ (53 - bitLength (fracOf d)), (bitLength (fracOf d) : Int) - 1075) := if_neg h

/-- LOG2ROUND as R164's code block writes it. -/
theorem log2Round_eq (d : BitVec 64) :
    Config.log2Round d =
      if (normaliseIn Config.diffFormat d).1 ≤ 6369051672525772 then (normaliseIn Config.diffFormat d).2
      else (normaliseIn Config.diffFormat d).2 + 1 := by
  simp only [Config.log2Round, nearestLog2]
  exact if_congr (roundsDown_binary64 _) rfl rfl

end Sys2Proof.Machine
end

