-- ==== Sys2Proof/Laws/PerInstr.lean ====
section
/-! SUPPORT. Per instruction: its encoding is the row spec/opcode_table.json gives it, and the decoder reads that
encoding back. -/

namespace Sys2Proof.Laws.TableRow

open Sys2Proof Sys2Proof.Machine

/-- The width, match value and mask of an instruction's row of spec/opcode_table.json. -/
def row : Instr → Nat × Nat × Nat
  | .hash _ => (9, 0x001, 0x003)
  | .deriveMasks _ => (9, 0x002, 0x003)
  | .bitrev32 _ => (9, 0x003, 0x003)
  | .reservedOp0 _ => (9, 0x000, 0x003)
  | .hHefty => (5, 0x01, 0x1F)
  | .hSha => (5, 0x02, 0x1F)
  | .hKInit => (5, 0x03, 0x1F)
  | .hKUpdIn => (5, 0x04, 0x1F)
  | .hKUpdH1 => (5, 0x05, 0x1F)
  | .hKFin => (5, 0x06, 0x1F)
  | .hGInit => (5, 0x07, 0x1F)
  | .hGUpdIn => (5, 0x08, 0x1F)
  | .hGUpdH1 => (5, 0x09, 0x1F)
  | .hGFin => (5, 0x0A, 0x1F)
  | .hBInit => (5, 0x0B, 0x1F)
  | .hBUpdIn => (5, 0x0C, 0x1F)
  | .hBUpdH1 => (5, 0x0D, 0x1F)
  | .hBFin => (5, 0x0E, 0x1F)
  | .hCombine => (5, 0x0F, 0x1F)
  | .mTbits => (5, 0x10, 0x1F)
  | .mMasks => (5, 0x11, 0x1F)
  | .rRev => (5, 0x12, 0x1F)

/-- The width of a code's format and the code as a number. -/
def bits : Code → Nat × Nat
  | .cmd c => (9, c.toNat)
  | .useq u => (5, u.toNat)

/-- The instruction is well formed, its encoding has the row's width and fixed bits, and decodes to it. -/
def Statement (i : Instr) : Prop :=
  i.wellFormed = true ∧ (bits (encode i)).1 = (row i).1 ∧ (bits (encode i)).2 &&& (row i).2.2 = (row i).2.1 ∧
    decode (encode i) = .ok i

/-- The row of a command word: its fixed bits are the two bits of OP. -/
theorem cmdWord_fixed (len : BitVec 7) (op : BitVec 2) : (cmdWord len op).toNat &&& 3 = op.toNat := by
  have h : (cmdWord len op).toNat = len.toNat * 4 + op.toNat := by
    rw [cmdWord, BitVec.toNat_append, Nat.shiftLeft_eq, Nat.mul_comm,
      ← Nat.two_pow_add_eq_or_of_lt op.isLt, Nat.mul_comm]
  rw [h, Nat.and_two_pow_sub_one_eq_mod _ 2]
  have := op.isLt
  omega

theorem hash (len : BitVec 7) : Statement (.hash len) :=
  ⟨rfl, rfl, cmdWord_fixed len Op.hash, by
    simp only [encode, decode, decodeCmd, cmdOp_cmdWord, cmdLen_cmdWord]; rfl⟩

theorem deriveMasks (len : BitVec 7) : Statement (.deriveMasks len) :=
  ⟨rfl, rfl, cmdWord_fixed len Op.deriveMasks, by
    simp only [encode, decode, decodeCmd, cmdOp_cmdWord, cmdLen_cmdWord]; rfl⟩

theorem bitrev32 (len : BitVec 7) : Statement (.bitrev32 len) :=
  ⟨rfl, rfl, cmdWord_fixed len Op.bitrev32, by
    simp only [encode, decode, decodeCmd, cmdOp_cmdWord, cmdLen_cmdWord]; rfl⟩

theorem reservedOp0 (len : BitVec 7) : Statement (.reservedOp0 len) :=
  ⟨rfl, rfl, cmdWord_fixed len Op.reserved, by
    simp only [encode, decode, decodeCmd, cmdOp_cmdWord, cmdLen_cmdWord]; rfl⟩

theorem hHefty : Statement .hHefty := ⟨rfl, rfl, rfl, rfl⟩

theorem hSha : Statement .hSha := ⟨rfl, rfl, rfl, rfl⟩

theorem hKInit : Statement .hKInit := ⟨rfl, rfl, rfl, rfl⟩

theorem hKUpdIn : Statement .hKUpdIn := ⟨rfl, rfl, rfl, rfl⟩

theorem hKUpdH1 : Statement .hKUpdH1 := ⟨rfl, rfl, rfl, rfl⟩

theorem hKFin : Statement .hKFin := ⟨rfl, rfl, rfl, rfl⟩

theorem hGInit : Statement .hGInit := ⟨rfl, rfl, rfl, rfl⟩

theorem hGUpdIn : Statement .hGUpdIn := ⟨rfl, rfl, rfl, rfl⟩

theorem hGUpdH1 : Statement .hGUpdH1 := ⟨rfl, rfl, rfl, rfl⟩

theorem hGFin : Statement .hGFin := ⟨rfl, rfl, rfl, rfl⟩

theorem hBInit : Statement .hBInit := ⟨rfl, rfl, rfl, rfl⟩

theorem hBUpdIn : Statement .hBUpdIn := ⟨rfl, rfl, rfl, rfl⟩

theorem hBUpdH1 : Statement .hBUpdH1 := ⟨rfl, rfl, rfl, rfl⟩

theorem hBFin : Statement .hBFin := ⟨rfl, rfl, rfl, rfl⟩

theorem hCombine : Statement .hCombine := ⟨rfl, rfl, rfl, rfl⟩

theorem mTbits : Statement .mTbits := ⟨rfl, rfl, rfl, rfl⟩

theorem mMasks : Statement .mMasks := ⟨rfl, rfl, rfl, rfl⟩

theorem rRev : Statement .rRev := ⟨rfl, rfl, rfl, rfl⟩

end Sys2Proof.Laws.TableRow
end

