-- ==== Sys2Proof/Laws/Platform.lean ====
section
/-! SUPPORT. What a platform step can do. -/

namespace Sys2Proof.Machine

@[simp] theorem Platform.put_same {n : Nat} (P : Platform n) (k : Fin n) (s : State) :
    (P.put k s).instances[k.val] = s := by simp [Platform.put]

@[simp] theorem Platform.put_other {n : Nat} (P : Platform n) {k j : Fin n} (h : j ≠ k) (s : State) :
    (P.put k s).instances[j.val] = P.instances[j.val] := by
  have : k.val ≠ j.val := fun e => h (Fin.ext e.symm)
  simp [Platform.put, this]

/-- A platform step that answers a next state is one of the instance's own. -/
theorem Platform.step_next {n : Nat} {P Q : Platform n} {k : Fin n} :
    Platform.step k P = .next Q ↔ ∃ t, Machine.step P.instances[k] = .next t ∧ Q = P.put k t := by
  unfold Platform.step
  cases Machine.step P.instances[k] <;> simp [@eq_comm _ Q]

end Sys2Proof.Machine
end

