-- ==== Sys2Proof/Laws/Step.lean ====
section
/-! SUPPORT. What one step can do: whose turn it is decides between a host action and the sequencer's move. -/

namespace Sys2Proof.Machine

/-- The turn changes nothing but the host's list. -/
theorem turn_eq {s t : State} (h : s.turn = some t) : t = { s with host := t.host } := by
  unfold State.turn at h
  split at h
  · cases h; rfl
  · cases h; rfl
  · split at h <;> cases h; rfl
  · split at h <;> cases h; rfl
  · cases h

theorem fetch_of_turn {s t : State} (h : s.turn = some t) : fetch s = sequencerMove t := by
  unfold State.turn at h
  unfold fetch
  cases hs : s.host with
  | nil => simp only [hs] at h ⊢; cases h; rfl
  | cons a r =>
    cases a <;> simp only [hs] at h ⊢ <;> try cases h
    · split at h
      · cases h
      · rename_i hn
        cases h
        rw [not_or] at hn
        rw [if_pos (by simp only [Option.isSome_iff_ne_none, ne_eq, decide_not, Bool.and_eq_true,
          Bool.not_eq_true', decide_eq_false_iff_not]; exact hn)]
    · split at h
      · rename_i hb
        cases h; rw [if_pos hb]
      · cases h
    · rfl

theorem fetch_of_no_turn {s : State} {a : HostAct} {r : List HostAct} (hh : s.host = a :: r) (h : s.turn = none) :
    fetch s = .settled (hostAct a { s with host := r }) := by
  unfold State.turn at h
  unfold fetch
  cases a <;> simp only [hh] at h ⊢
  · split at h
    · rename_i hn
      rw [if_neg (by rcases hn with hn | hn <;> simp [hn])]
      rfl
    · cases h
  · split at h
    · cases h
    · rename_i hb
      rw [if_neg hb]
      rfl
  · cases h

theorem turn_of_no_host {s : State} (h : s.host = []) : s.turn = some s := by
  unfold State.turn; rw [h]

/-- A step at IDLE with a command presented is the meaning of that command, and takes it off the port. -/
theorem step_of_command {s t : State} {c : BitVec 9} (h : s.turn = some t) (hs : t.seq = Useq.idle)
    (hc : t.cmd = some c) : step s = exec (decodeCmd c) { t with cmd := none } := by
  simp only [step, fetch_of_turn h, sequencerMove]
  rw [if_pos hs]
  simp only [hc]

/-- A step while a command runs is the meaning of the micro-operation SEQ names. -/
theorem step_of_micro {s t : State} {i : Instr} (h : s.turn = some t) (hi : decodeUseq t.seq = .ok i) :
    step s = exec i t := by
  have h0 : t.seq ≠ Useq.idle := by intro h0; rw [h0] at hi; cases hi
  have h1 : t.seq ≠ Useq.halt := by intro h1; rw [h1] at hi; cases hi
  simp only [step, fetch_of_turn h, sequencerMove]
  rw [if_neg h0, if_neg h1]
  simp only [hi]

theorem step_of_idle {s t : State} (h : s.turn = some t) (hs : t.seq = Useq.idle) (hc : t.cmd = none) :
    step s = .next t := by
  simp only [step, fetch_of_turn h, sequencerMove]
  rw [if_pos hs]
  simp only [hc]

theorem step_of_halt {s t : State} (h : s.turn = some t) (hs : t.seq = Useq.halt) : step s = .next t := by
  simp only [step, fetch_of_turn h, sequencerMove]
  rw [if_neg (by rw [hs]; decide), if_pos hs]

/-- Everything a step that answers a next state can be. -/
theorem step_cases {s u : State} (h : step s = .next u) :
    (∃ a r, s.host = a :: r ∧ s.turn = none ∧ hostAct a { s with host := r } = .next u) ∨
    ∃ t, s.turn = some t ∧
      ((t.seq = Useq.idle ∧ t.cmd = none ∧ u = t) ∨
        (∃ c, t.seq = Useq.idle ∧ t.cmd = some c ∧ exec (decodeCmd c) { t with cmd := none } = .next u) ∨
        (t.seq = Useq.halt ∧ u = t) ∨
        ∃ i, decodeUseq t.seq = .ok i ∧ exec i t = .next u) := by
  cases ht : s.turn with
  | none =>
    cases hh : s.host with
    | nil => rw [turn_of_no_host hh] at ht; cases ht
    | cons a r =>
      refine .inl ⟨a, r, rfl, rfl, ?_⟩
      simpa only [step, fetch_of_no_turn hh ht] using h
  | some t =>
    refine .inr ⟨t, rfl, ?_⟩
    by_cases h0 : t.seq = Useq.idle
    · cases hc : t.cmd with
      | none =>
        rw [step_of_idle ht h0 hc] at h
        cases h
        exact .inl ⟨h0, rfl, rfl⟩
      | some c =>
        rw [step_of_command ht h0 hc] at h
        exact .inr (.inl ⟨c, h0, rfl, h⟩)
    · by_cases h1 : t.seq = Useq.halt
      · rw [step_of_halt ht h1] at h
        cases h
        exact .inr (.inr (.inl ⟨h1, rfl⟩))
      · cases hd : decodeUseq t.seq with
        | ok i =>
          rw [step_of_micro ht hd] at h
          exact .inr (.inr (.inr ⟨i, rfl, h⟩))
        | error e =>
          simp only [step, fetch_of_turn ht, sequencerMove] at h
          rw [if_neg h0, if_neg h1, hd] at h
          cases h

/-- A host write that is answered happened with BUSY = 0. -/
theorem hostWrite_next {s t u : State} : hostWrite s t = .next u ↔ s.busy = false ∧ u = t := by
  unfold hostWrite
  cases s.busy <;> simp [@eq_comm _ u]

/-- A host read that is answered only adds to what the host has read. -/
theorem hostRead_next {r : HostReg} {s t : State} :
    hostRead r s = .next t ↔ ∃ v, readReg s r = .ok v ∧ t = { s with reads := s.reads ++ [⟨r, v⟩] } := by
  unfold hostRead
  cases readReg s r <;> simp [@eq_comm _ t]

end Sys2Proof.Machine
end

