-- ==== Sys2Proof/Tests/Slice0.lean ====
section
/-! SUPPORT. Tests of the model. Each expected result is the spec's own: the encodings of spec/30_encoding.md and the
vectors of spec/95_test_vectors.md, named at each test. Then, for each obligation that has hypotheses, a concrete state
and operands that meet them together. -/

namespace Sys2Proof.Tests

open Sys2Proof Sys2Proof.Machine

/-! ## Helpers -/

/-- The next state of an outcome. -/
def nextOf : Out → Option State
  | .next s => some s
  | .fault _ => none
  | .refused _ => none

/-- The fault of an outcome. -/
def faultOf : Out → Option Fault
  | .next _ => none
  | .fault f => some f
  | .refused _ => none

/-- One field of the next state. -/
def after {α : Type} (o : Out) (f : State → α) : Option α := (nextOf o).map f

/-- A header of 84 zero bytes. -/
def zeros84 : Bytes := List.replicate 84 0

/-- Reset, with every input written. -/
def loaded : State :=
  { State.reset with
    hdr := Memory.writeBytes [] 0 zeros84
    diff := 0x4090000000000000, diffSet := true
    brin := 0x0000000F, brinSet := true }

/-- HASH of the loaded header in progress at micro-operation `u`, with the flags it then has. -/
def hashing (u : BitVec 5) : State :=
  { loaded with
    seq := u, status := 0x01, opr := 1, lenr := 84
    h1V := 2 ≤ u.toNat, h2V := 3 ≤ u.toNat
    kcV := 4 ≤ u.toNat && u.toNat ≤ 6, aux1V := 7 ≤ u.toNat
    gcV := 8 ≤ u.toNat && u.toNat ≤ 10, aux2V := 11 ≤ u.toNat
    bcV := 12 ≤ u.toNat && u.toNat ≤ 14, aux3V := 15 ≤ u.toNat }

/-- HASH in progress at H_COMBINE, every register holding the chain of the loaded header. -/
def combining : State :=
  { hashing 15 with
    h1 := Config.engines.hefty1 zeros84
    h2 := chainedDigest Config.engines zeros84
    aux1 := auxDigest Config.engines.keccak512 zeros84 (Config.engines.hefty1 zeros84).toList
    aux2 := auxDigest Config.engines.groestl512 zeros84 (Config.engines.hefty1 zeros84).toList
    aux3 := auxDigest Config.engines.blake512 zeros84 (Config.engines.hefty1 zeros84).toList }

/-- DERIVE_MASKS in progress at M_TBITS. -/
def budgeting : State := { loaded with seq := 16, status := 0x01, opr := 2 }

/-- DERIVE_MASKS in progress at M_MASKS with the budget of 1024.0. -/
def masking : State := { loaded with seq := 17, status := 0x01, opr := 2, tbits := 41, tbitsV := true }

/-- BITREV32 in progress. -/
def reversing : State := { loaded with seq := 18, status := 0x01, opr := 3 }

/-- Halted by HASH with length 64, after a BITREV32 (P3 of spec/95). -/
def halted : State :=
  { loaded with
    seq := 31, status := 0x04, faultInfo := 0x101, opr := 1, lenr := 64, brout := 0xF0000000, brV := true }

/-- The loaded machine at IDLE with a command on the port. -/
def presenting (c : BitVec 9) : State := { loaded with cmd := some c }

/-! ## Well-formedness refuses -/

theorem test_wf_refuses_empty_write : (HostAct.wrHdr 0 []).wellFormed = false := by decide

theorem test_wf_refuses_write_past_83 : (HostAct.wrHdr 83 [0, 0]).wellFormed = false := by decide

theorem test_wf_refuses_read_of_84 : (HostAct.read (.hdr 84)).wellFormed = false := by decide

theorem test_wf_refuses_hefty1_of_83_bytes : (EngineCall.hefty1 (List.replicate 83 0)).wellFormed = false := by decide

theorem test_wf_refuses_sha256_without_h1 : (EngineCall.sha256 zeros84).wellFormed = false := by decide

theorem test_wf_refuses_merged_update : (EngineCall.update .keccak (List.replicate 116 0)).wellFormed = false := by
  decide

/-- Every instruction is well formed by its type, so what is refused is the word (R93, R95). -/
theorem test_wf_refuses_words :
    decode (.useq 0) = .error .idleState ∧ decode (.useq 31) = .error .haltState ∧
    decode (.useq 19) = .error .unusedCode ∧ decode (.useq 30) = .error .unusedCode ∧
    decodeTableWord 16 0b1000000001 = none ∧ decodeTableWord 8 0b100001 = none ∧
    decodeBytes [] = .error .tooWide ∧ decodeBytes [0, 0, 0] = .error .tooWide := by
  refine ⟨rfl, rfl, rfl, rfl, ?_, ?_, rfl, rfl⟩ <;> decide

/-! ## Decoding, word by word from R91 and R97 -/

/-- The command words of spec/95 section 2.6. -/
theorem test_decode_commands :
    decodeTableWord 16 0b101010001 = some (.hash 84) ∧ decodeTableWord 16 0b101000001 = some (.hash 80) ∧
    decodeTableWord 16 0b111111101 = some (.hash 127) ∧ decodeTableWord 16 0b000000010 = some (.deriveMasks 0) ∧
    decodeTableWord 16 0b101010010 = some (.deriveMasks 84) ∧ decodeTableWord 16 0b000000011 = some (.bitrev32 0) ∧
    decodeTableWord 16 0b000000000 = some (.reservedOp0 0) ∧
    decodeTableWord 16 0b101010000 = some (.reservedOp0 84) := by decide

theorem test_decode_hash_chain :
    decodeTableWord 8 0b00001 = some .hHefty ∧ decodeTableWord 8 0b00010 = some .hSha ∧
    decodeTableWord 8 0b00011 = some .hKInit ∧ decodeTableWord 8 0b00100 = some .hKUpdIn ∧
    decodeTableWord 8 0b00101 = some .hKUpdH1 ∧ decodeTableWord 8 0b00110 = some .hKFin ∧
    decodeTableWord 8 0b00111 = some .hGInit ∧ decodeTableWord 8 0b01000 = some .hGUpdIn ∧
    decodeTableWord 8 0b01001 = some .hGUpdH1 ∧ decodeTableWord 8 0b01010 = some .hGFin ∧
    decodeTableWord 8 0b01011 = some .hBInit ∧ decodeTableWord 8 0b01100 = some .hBUpdIn ∧
    decodeTableWord 8 0b01101 = some .hBUpdH1 ∧ decodeTableWord 8 0b01110 = some .hBFin := by decide

theorem test_decode_last_micro_operations :
    decodeTableWord 8 0b01111 = some .hCombine ∧ decodeTableWord 8 0b10000 = some .mTbits ∧
    decodeTableWord 8 0b10001 = some .mMasks ∧ decodeTableWord 8 0b10010 = some .rRev := by decide

/-- The very next step runs the placed instruction (the host's question). -/
theorem test_withFetchWord :
    after (step (State.reset.withFetchWord 16 0b101010001)) State.seq = some 1 ∧
    after (step (State.reset.withFetchWord 8 0b00010)) State.h2V = some true ∧
    after (step (State.reset.withFetchWord 8 0b01110)) State.aux3V = some true ∧
    after (step (State.reset.withFetchWord 8 0b01111)) State.outV = some true ∧
    after (step (State.reset.withFetchWord 8 0b10001)) State.maskV = some true := by
  refine ⟨?_, ?_, ?_, ?_, ?_⟩ <;> decide +kernel

/-! ## Acceptance and the hardware faults (spec/95 section 2.6) -/

theorem test_hash_84_starts :
    after (exec (.hash 84) State.reset) (fun t => (t.opr, t.lenr, t.status, t.seq)) = some (1, 84, 0x01, 1) := by
  decide

/-- P3: the fault leaves BROUT and its flag. -/
theorem test_hash_64_faults :
    after (step (presenting 0x101)) (fun t => (t.opr, t.lenr, t.status, t.seq, t.faultInfo, t.h1V)) =
      some (1, 64, 0x04, 31, 0x101, false) := by decide

theorem test_hash_83_and_85_fault :
    after (exec (.hash 83) State.reset) (fun t => (t.status, t.faultInfo, t.seq)) = some (0x04, 0x14D, 31) ∧
    after (exec (.hash 85) State.reset) (fun t => (t.status, t.faultInfo, t.seq)) = some (0x04, 0x155, 31) := by
  decide

theorem test_reserved_faults :
    after (exec (.reservedOp0 84) State.reset) (fun t => (t.opr, t.status, t.faultInfo, t.seq)) =
      some (0, 0x08, 0x150, 31) := by decide

theorem test_derive_masks_ignores_len :
    after (exec (.deriveMasks 84) State.reset) (fun t => (t.opr, t.lenr, t.status, t.seq)) =
      some (2, 84, 0x01, 16) := by decide

theorem test_bitrev32_clears_its_flag_only :
    after (exec (.bitrev32 0) { loaded with brV := true, maskV := true, outV := true })
      (fun t => (t.opr, t.seq, t.brV, t.maskV, t.outV)) = some (3, 18, false, true, true) := by decide

theorem test_command_while_busy_is_not_taken :
    after (exec (.reservedOp0 0) (hashing 3)) (fun t => (t.seq, t.status, t.opr)) = some (3, 0x01, 1) := by decide

theorem test_halt_takes_no_command :
    after (step { halted with cmd := some 0x002 }) (fun t => (t.seq, t.cmd, t.faultInfo)) =
      some (31, some 0x002, 0x101) := by decide

theorem test_rst_leaves_halt :
    after (step { halted with cmd := some 0x001, host := [.rst, .wait] })
      (fun t => (t.seq, t.status, t.faultInfo, t.brV, t.cmd)) =
      some (0, 0x00, 0, false, none) := by decide

/-! ## The host -/

theorem test_host_write_while_busy : faultOf (hostAct (.wrHdr 0 [1]) (hashing 1)) = some .hostWriteWhileBusy := by
  decide

/-- R225, R68: a read that comes too early has no value and no effect. -/
theorem test_host_reads_early :
    after (hostAct (.read .out) (hashing 1)) (fun t => (t.reads.length, t.seq, t.status, t.outV)) =
      some (1, 1, 0x01, false) := by decide

theorem test_host_reads_unwritten_byte :
    faultOf (hostAct (.read (.hdr 83)) State.reset) = some .headerNoValue := by decide

theorem test_header_write_and_read :
    (Memory.writeBytes (Memory.writeBytes [] 80 [1, 2, 3, 4]) 81 [7]).readBytes 80 4 = some [1, 7, 3, 4] ∧
    (Memory.writeBytes [] 80 [1, 2, 3]).readBytes 80 4 = none := by decide

/-! ## The functions on the vectors of spec/95 -/

/-- Section 2.1. -/
theorem test_bitrev32 :
    bitrev32 0x00000001 = 0x80000000 ∧ bitrev32 0x0000007F = 0xFE000000 ∧ bitrev32 0x7FFFFFFF = 0xFFFFFFFE ∧
    bitrev32 0x12345678 = 0x1E6A2C48 ∧ bitrev32 0xDEADBEEF = 0xF77DB57B := by decide

/-- R182, the stages of 12345678. -/
theorem test_bitrev_stages :
    swapStage 0x55555555 1 0x12345678 = 0x2138A9B4 ∧ swapStage 0x33333333 2 0x2138A9B4 = 0x84C2A6E1 ∧
    swapStage 0x0F0F0F0F 4 0x84C2A6E1 = 0x482C6A1E ∧ swapStage 0x00FF00FF 8 0x482C6A1E = 0x2C481E6A ∧
    swapStage 0x0000FFFF 16 0x2C481E6A = 0x1E6A2C48 := by decide

/-- Section 2.2, the corners of LOG2ROUND. -/
theorem test_log2round :
    Config.log2Round 0x3FF6A09E667F3BCC = 0 ∧ Config.log2Round 0x3FF6A09E667F3BCD = 1 ∧ Config.log2Round 0x3FE6666666666666 = -1 ∧
    Config.log2Round 0x0010000000000000 = -1022 ∧ Config.log2Round 0x0000000000000001 = -1074 ∧
    Config.log2Round 0x0000000000000003 = -1072 ∧ Config.log2Round 0x7FEFFFFFFFFFFFFF = 1024 := by decide

/-- Section 2.2, TBITS. -/
theorem test_tbits :
    deriveTbits 0x3FF0000000000000 = 31 ∧ deriveTbits 0x408F400000000000 = 41 ∧ deriveTbits 0x3F06A09E667F3BCD = 17 ∧
    deriveTbits 0x3F06A09E667F3BCC = 16 ∧ deriveTbits 0x7FEFFFFFFFFFFFFF = 1055 ∧ deriveTbits 0x0000000000000001 = 16 := by
  decide

/-- Section 2.2, what is not positive finite: both infinities, NaN, both zeros, -1.0. -/
theorem test_tbits_floor :
    deriveTbits 0x7FF0000000000000 = 16 ∧ deriveTbits 0xFFF0000000000000 = 16 ∧ deriveTbits 0x7FF8000000000000 = 16 ∧
    deriveTbits 0xFFF0000000000001 = 16 ∧ deriveTbits 0x0000000000000000 = 16 ∧ deriveTbits 0x8000000000000000 = 16 ∧
    deriveTbits 0xBFF0000000000000 = 16 := by decide

/-- Section 2.2, last column: the alternative value 16 of TBITS_BASE (C1). -/
theorem test_tbits_base_16 :
    deriveTbitsWith 16 .binary64 Config.log2Round 0x3FF0000000000000 = 16 ∧ deriveTbitsWith 16 .binary64 Config.log2Round 0x4090000000000000 = 26 ∧
    deriveTbitsWith 16 .binary64 Config.log2Round 0x7FEFFFFFFFFFFFFF = 1040 := by decide

/-- Section 2.3. -/
theorem test_masks :
    deriveMasks 16 = #v[0xF0000000, 0xF0000000, 0xF0000000, 0xF0000000] ∧
    deriveMasks 19 = #v[0xF8000000, 0xF8000000, 0xF8000000, 0xF0000000] ∧
    deriveMasks 41 = #v[0xFFE00000, 0xFFC00000, 0xFFC00000, 0xFFC00000] ∧
    deriveMasks 123 = #v[0xFFFFFFFE, 0xFFFFFFFE, 0xFFFFFFFE, 0xFFFFFFFC] ∧
    deriveMasks 1055 = #v[0xFFFFFFFE, 0xFFFFFFFE, 0xFFFFFFFE, 0xFFFFFFFE] := by decide

/-- Sources with words 7 and 6 as given and every other word `x`. -/
def sources (x a7 a6 b7 b6 c7 c6 d7 d6 : Word) : Sources where
  h2 := #v[x, x, x, x, x, x, a6, a7]
  aux1 := #v[x, x, x, x, x, x, b6, b7, x, x, x, x, x, x, x, x]
  aux2 := #v[x, x, x, x, x, x, c6, c7, x, x, x, x, x, x, x, x]
  aux3 := #v[x, x, x, x, x, x, d6, d7, x, x, x, x, x, x, x, x]

/-- CV18 of section 2.4. -/
def cv18 (x : Word) : Sources :=
  sources x 0x01234567 0x89ABCDEF 0xDEADBEEF 0xCAFEBABE 0x0F1E2D3C 0x4B5A6978 0xFFFF0000 0x00FF00FF

/-- CV18. -/
theorem test_combine :
    combine (cv18 0) =
      #v[0xDBF7FDD9, 0xCA64E84A, 0xD7D7F5F9, 0xC600E06A, 0x4CE26ECC, 0x48646E4A, 0x51D377BD, 0x5515777B] := by
  decide +kernel

/-- CV19: the other words have no effect. -/
theorem test_combine_unused_words :
    combine (cv18 0xA5A5A5A5) =
      #v[0xDBF7FDD9, 0xCA64E84A, 0xD7D7F5F9, 0xC600E06A, 0x4CE26ECC, 0x48646E4A, 0x51D377BD, 0x5515777B] := by
  decide +kernel

/-- The other two forms on CV18. -/
theorem test_combine_forms :
    combineSerial (cv18 0) = (combine (cv18 0), 256) ∧ combineMux (cv18 0) = combine (cv18 0) := by decide +kernel

/-- CV2, CV5 and CV6: positions 0, 253 and 126. -/
theorem test_combine_positions :
    combine (sources 0 0x80000000 0 0 0 0 0 0 0) = #v[0, 0, 0, 0, 0, 0, 0, 0x80000000] ∧
    combine (sources 0 0 0 0 0x00000001 0 0 0 0) = #v[4, 0, 0, 0, 0, 0, 0, 0] ∧
    combine (sources 0 0 0 0 0 0x00000001 0 0 0) = #v[0, 0, 0, 0, 2, 0, 0, 0] := by decide +kernel

/-- Section 2.5, both byte orders. -/
theorem test_words :
    wordsOf .little 2 #v[0xFF, 0, 0, 0, 0, 0, 0, 0x80] = #v[0x000000FF, 0x80000000] ∧
    wordsOf .little 1 #v[0, 1, 2, 3] = #v[0x03020100] ∧ wordsOf .big 1 #v[0, 1, 2, 3] = #v[0x00010203] := by decide

/-- Section 2.4, the bytes of CV18's result. -/
theorem test_bytes :
    hashBytes #v[0xDBF7FDD9, 0xCA64E84A, 0xD7D7F5F9, 0xC600E06A, 0x4CE26ECC, 0x48646E4A, 0x51D377BD, 0x5515777B] =
      #v[0xD9, 0xFD, 0xF7, 0xDB, 0x4A, 0xE8, 0x64, 0xCA, 0xF9, 0xF5, 0xD7, 0xD7, 0x6A, 0xE0, 0x00, 0xC6,
        0xCC, 0x6E, 0xE2, 0x4C, 0x4A, 0x6E, 0x64, 0x48, 0xBD, 0x77, 0xD3, 0x51, 0x7B, 0x77, 0x15, 0x55] := by decide

/-- R147: position 0 is the most significant of 256 bits, position 255 the least (CV2, CV8). -/
theorem test_hash_value :
    hashValue #v[0, 0, 0, 0, 0, 0, 0, 0x80000000] = 2 ^ 255 ∧ hashValue #v[1, 0, 0, 0, 0, 0, 0, 0] = 1 := by decide

/-! ## The stub engines of spec/95 section 4: they break the streaming law on purpose -/

/-- A stub context as bytes: the tag, the number of messages, and 64 accumulated bytes. -/
def stubInit (tag : Byte) : Bytes := tag :: 0 :: List.replicate 64 0

def stubUpdate (c m : Bytes) : Bytes :=
  c.take 1 ++ (c.getD 1 0 + 1) ::
    (List.range 64).map fun i => c.getD (i + 2) 0 ^^^ m.getD (i % m.length) 0

def stubFinalize (c : Bytes) : Vector Byte 64 :=
  Vector.ofFn fun i => c.getD 0 0 ^^^ (0x40 * c.getD 1 0) ^^^ c.getD (i.val + 2) 0

def stubHefty (m : Bytes) : Vector Byte 32 := Vector.ofFn fun i => m.getD i.val 0 ^^^ BitVec.ofNat 8 (0x10 + i.val)

def stubSha (m : Bytes) : Vector Byte 32 :=
  Vector.ofFn fun i => m.getD (m.length - 32 + i.val) 0 ^^^ m.getD i.val 0 ^^^ BitVec.ofNat 8 m.length

def stub : Engines where
  hefty1 := stubHefty
  sha256 := stubSha
  keccak512 := ⟨⟨stubInit 0x4B⟩, fun c m => ⟨stubUpdate c.bytes m⟩, fun c => stubFinalize c.bytes⟩
  groestl512 := ⟨⟨stubInit 0x47⟩, fun c m => ⟨stubUpdate c.bytes m⟩, fun c => stubFinalize c.bytes⟩
  blake512 := ⟨⟨stubInit 0x42⟩, fun c m => ⟨stubUpdate c.bytes m⟩, fun c => stubFinalize c.bytes⟩

/-- P1: OUT of the 84-byte all-zero header. -/
theorem test_p1_out :
    powHash stub zeros84 =
      #v[0x7F78BA76, 0x7F78BA79, 0x7F78BA86, 0x7F78BA89, 0x7F78B576, 0x7F78B579, 0x7F78B586, 0x7F78B589] := by decide +kernel

/-- P2: OUT of the 80-byte header 00 01 02 .. 4f. -/
theorem test_p2_out :
    powHash stub ((List.range 80).map (BitVec.ofNat 8)) =
      #v[0x7F78B276, 0x7F78B279, 0x7F78B286, 0x7F78B289, 0x7F78BD76, 0x7F78BD79, 0x7F78BD86, 0x7F78BD89] := by decide +kernel

/-- P1: H_HEFTY and H_SHA as steps over the stubs. -/
theorem test_p1_steps :
    after (heftyWith stub (hashing 1)) (fun t => (t.h1[0], t.h1[31], t.h1V, t.seq)) = some (0x10, 0x2F, true, 2) ∧
    after (shaWith stub { hashing 2 with h1 := stubHefty zeros84 }) (fun t => (t.h2[0], t.h2[7], t.seq)) =
      some (0x67666564, 0x5B5A5958, 3) := by decide +kernel

/-- P1: H_K_UPD_H1 sends its own message and H_K_FIN consumes the context. -/
theorem test_p1_context_steps :
    after (ctxUpdateH1 portK stub.keccak512 5 { hashing 5 with kc := ⟨stubUpdate (stubInit 0x4B) zeros84⟩ })
      (fun t => (t.kc.bytes.getD 1 0, t.engineCalls.length, t.seq)) = some (2, 1, 6) ∧
    after (ctxFinalize portK stub.keccak512 6
      { hashing 6 with
        kc := ⟨stubUpdate (stubUpdate (stubInit 0x4B) zeros84) (stubHefty zeros84).toList⟩ })
      (fun t => (t.aux1[0], t.aux1[7], t.aux1V, t.kcV, t.seq)) = some (0xD8D9DADB, 0xE4E5E6E7, true, false, 7) := by
  decide +kernel

/-! ## Single steps of the other micro-operations -/

theorem test_m_tbits_step :
    after (step budgeting) (fun t => (t.tbits, t.tbitsV, t.maskV, t.seq, t.status)) = some (41, true, false, 17, 0x01) := by
  decide

theorem test_m_masks_step :
    after (step masking) (fun t => (t.mask, t.seq, t.status)) =
      some (#v[0xFFE00000, 0xFFC00000, 0xFFC00000, 0xFFC00000], 0, 0x02) := by decide

theorem test_r_rev_step :
    after (step reversing) (fun t => (t.brout, t.brV, t.brin, t.seq, t.status)) =
      some (0xF0000000, true, 0x0000000F, 0, 0x02) := by decide

theorem test_h_combine_step :
    after (exec .hCombine { hashing 15 with h2 := (cv18 0).h2 }) (fun t => (t.out[7], t.outV, t.seq, t.status, t.bitCount)) =
      some (0x00000008, true, 0, 0x02, 256) := by decide +kernel

/-- R40: BRIN not written, so the bits of BROUT are open, and the command ends all the same. -/
theorem test_r_rev_without_brin :
    after (exec .rRev State.reset) (fun t => (t.brV, t.seq, t.status)) = some (true, 0, 0x02) := by decide

theorem test_hash_without_header : faultOf (exec .hHefty { State.reset with lenr := 80 }) = some .headerNoValue := by
  decide


/-! ## Witnesses: the hypotheses of each obligation, met together

A clause over a range is met at both ends of it. -/

theorem witness_CommandDecodingIsTotalAndUnusedCodesRefuse :
    ({ loaded with seq := 19 } : State).turn = some { loaded with seq := 19 } ∧
    ({ loaded with seq := 30 } : State).turn = some { loaded with seq := 30 } := ⟨rfl, rfl⟩

/-- Its four cases, each reached by another way of giving the sequencer its turn. -/
theorem witness_StepRunsTheDecodedInstruction :
    (({ presenting 0x151 with host := [.hold] } : State).turn = some { presenting 0x151 with host := [.hold] } ∧
      (presenting 0x151).seq = Useq.idle ∧ (presenting 0x151).cmd = some 0x151 ∧
      decode (.cmd 0x151) = .ok (.hash 84)) ∧
    (({ hashing 1 with host := [.wait] } : State).turn = some { hashing 1 with host := [.wait] } ∧
      decode (.useq (hashing 1).seq) = .ok .hHefty) ∧
    (({ reversing with host := [.tick] } : State).turn = some reversing ∧
      decode (.useq reversing.seq) = .ok .rRev) ∧
    (loaded.turn = some loaded ∧ loaded.seq = Useq.idle ∧ loaded.cmd = none) ∧
    (halted.turn = some halted ∧ halted.seq = Useq.halt) := by
  refine ⟨⟨rfl, rfl, rfl, rfl⟩, ⟨rfl, rfl⟩, ⟨rfl, rfl⟩, ⟨rfl, rfl, rfl⟩, rfl, rfl⟩

/-- An action that acts at once, and the two waits, finished. -/
theorem witness_StepPerformsTheHostAction :
    ({ hashing 1 with host := [.read .status] } : State).turn = none ∧
    ({ loaded with host := [.hold, .wait] } : State).turn = none ∧
    ({ loaded with host := [.wait] } : State).turn = none ∧
    ({ halted with cmd := some 0x002, host := [.hold] } : State).turn = none := ⟨rfl, rfl, rfl, rfl⟩

theorem witness_CommandIsNotTakenUnlessIdle :
    isMicro (.hash 84) = false ∧ (hashing 15).seq ≠ Useq.idle ∧ halted.seq ≠ Useq.idle := by decide

theorem witness_HashOfLegalLengthStarts : loaded.seq = Useq.idle ∧ ((84 : BitVec 7) = 80 ∨ (84 : BitVec 7) = 84) := by
  decide

/-- The lengths next to the legal ones, and the ends of the range. -/
theorem witness_HashOfOtherLengthTakesLengthFault :
    loaded.seq = Useq.idle ∧ ∀ len ∈ [(0 : BitVec 7), 79, 81, 83, 85, 127], len ≠ 80 ∧ len ≠ 84 := by decide

theorem witness_ReservedCommandTakesOpFault : loaded.seq = Useq.idle := rfl

theorem witness_DeriveMasksStarts : State.reset.seq = Useq.idle := rfl

theorem header_hashing (u : BitVec 5) : (hashing u).header = some zeros84 := by
  change Memory.readBytes (Memory.writeBytes [] 0 zeros84) 0 84 = some zeros84
  decide +kernel

theorem witness_HeftyWritesH1 : ((hashing 1).lenr = 80 ∨ (hashing 1).lenr = 84) ∧
    (hashing 1).header = some zeros84 := ⟨.inr rfl, header_hashing 1⟩

/-- The other legal length, with bytes 80 to 83 never written (R63). -/
theorem witness_HeftyWritesH1_of_80 :
    let s : State := { State.reset with hdr := Memory.writeBytes [] 0 (zeros84.take 80), lenr := 80 }
    s.lenr = 80 ∧ s.header = some (zeros84.take 80) := by decide +kernel

theorem witness_ShaWritesH2 : ((hashing 2).lenr = 80 ∨ (hashing 2).lenr = 84) ∧
    (hashing 2).header = some zeros84 ∧ (hashing 2).h1V = true := ⟨.inr rfl, header_hashing 2, rfl⟩

theorem witness_UpdateTakesTheHeader :
    ((hashing 4).lenr = 84 ∧ (hashing 4).header = some zeros84 ∧ (hashing 4).kcV = true) ∧
    ((hashing 8).lenr = 84 ∧ (hashing 8).header = some zeros84 ∧ (hashing 8).gcV = true) ∧
    ((hashing 12).lenr = 84 ∧ (hashing 12).header = some zeros84 ∧ (hashing 12).bcV = true) :=
  ⟨⟨rfl, header_hashing 4, rfl⟩, ⟨rfl, header_hashing 8, rfl⟩, rfl, header_hashing 12, rfl⟩

theorem witness_UpdateTakesH1 :
    ((hashing 5).h1V = true ∧ (hashing 5).kcV = true) ∧ ((hashing 9).h1V = true ∧ (hashing 9).gcV = true) ∧
    ((hashing 13).h1V = true ∧ (hashing 13).bcV = true) := by decide

theorem witness_FinalizeWritesTheDigest :
    (hashing 6).kcV = true ∧ (hashing 10).gcV = true ∧ (hashing 14).bcV = true := by decide

theorem witness_WordViewOfBytes : (0 : Nat) < 8 ∧ (7 : Nat) < 8 := by decide

theorem witness_BitSerialCombinerEqualsClosedForm : ∃ t, exec .hCombine (hashing 15) = .next t :=
  ⟨_, execHCombine_next.2 rfl⟩

theorem witness_CombineWritesOutAndEndsHash :
    (hashing 15).h2V = true ∧ (hashing 15).aux1V = true ∧ (hashing 15).aux2V = true ∧ (hashing 15).aux3V = true := by
  decide

/-- The positions where the word and the source word change. -/
theorem witness_CombineBitProvenance : ∀ p ∈ [0, 31, 32, 127, 128, 255], p < 256 := by decide

/-- The command, the micro-operation, and both ends of the word. -/
theorem witness_RevWritesReversedWord :
    loaded.seq = Useq.idle ∧ reversing.brinSet = true ∧ 0 < 32 ∧ 31 < 32 := by decide

/-- The smallest and the largest, 1.0, and the two sides of sqrt(2). -/
theorem witness_Log2RoundIsTheNearestInteger :
    positiveFinite 0x0000000000000001 = true ∧ positiveFinite 0x7FEFFFFFFFFFFFFF = true ∧
    positiveFinite 0x3FF6A09E667F3BCC = true ∧ positiveFinite 0x3FF6A09E667F3BCD = true := by decide

/-- The two sides of the floor. -/
theorem witness_BitBudgetOfPositiveDifficulty :
    positiveFinite 0x3F06A09E667F3BCC = true ∧ positiveFinite 0x3F06A09E667F3BCD = true := by decide

theorem witness_OtherDifficultiesGiveTheFloor :
    (0x7FF0000000000000 : BitVec 64).extractLsb' 52 11 = 2047 ∧ (0x8000000000000000 : BitVec 64).extractLsb' 0 63 = 0 ∧
    (0xBFF0000000000000 : BitVec 64).getLsbD 63 = true := by decide

theorem witness_BitBudgetIsMonotone :
    positiveFinite 0x3FF0000000000000 = true ∧ positiveFinite 0x4000000000000000 = true ∧
    magnitude 0x3FF0000000000000 < magnitude 0x4000000000000000 := by
  refine ⟨by decide, by decide, ?_⟩
  have h1 : expOf 0x3FF0000000000000 = 1023 := by decide
  have h2 : fracOf 0x3FF0000000000000 = 0 := by decide
  have h3 : expOf 0x4000000000000000 = 1024 := by decide
  have h4 : fracOf 0x4000000000000000 = 0 := by decide
  unfold magnitude
  rw [h1, h2, h3, h4]
  norm_num

theorem witness_TbitsWritesTheBudget : budgeting.diffSet = true := rfl

theorem witness_MasksWritesTheFourMasks : masking.tbitsV = true := rfl

theorem witness_MaskHasItsHighBitsSet : (0 : Nat) < 4 ∧ (3 : Nat) < 4 := by decide

theorem witness_OneSlotGrowsAtATime : (16 ≤ 16 ∧ 16 < 124 ∧ 0 < 4) ∧ 16 ≤ 123 ∧ 123 < 124 ∧ 3 < 4 := by decide

theorem witness_MasksTestTheLeadingBits : (16 ≤ 16 ∧ 16 ≤ 124) ∧ 16 ≤ 124 ∧ 124 ≤ 124 := by decide

/-- For each clause a state without the operand; for H_COMBINE and the second updates each flag that can be missing. -/
theorem witness_OperandWithoutAValue :
    ({ State.reset with lenr := 85 } : State).lenr.toNat > 84 ∧ ({ State.reset with lenr := 84 } : State).header = none ∧
    ((hashing 1).lenr = 84 ∧ (hashing 1).header = some zeros84 ∧ (hashing 1).h1V = false ∧ (hashing 1).kcV = false ∧
      (hashing 1).gcV = false ∧ (hashing 1).bcV = false) ∧
    ((hashing 5).h1V = true ∧ (hashing 5).kcV = true ∧ (hashing 5).gcV = false ∧ (hashing 5).bcV = false ∧
      (hashing 9).kcV = false) ∧
    ((hashing 2).h2V = false ∧ (hashing 6).aux1V = false ∧ (hashing 10).aux2V = false ∧ (hashing 14).aux3V = false) ∧
    State.reset.diffSet = false ∧ State.reset.tbitsV = false ∧ State.reset.brinSet = false := by decide +kernel

/-- An instruction that reads the header, with it and without it, and one that reads none. -/
theorem witness_ExecCompletesExactlyWhenTheHeaderHolds :
    headerHoldsFor .hHefty (hashing 1) ∧ ¬ headerHoldsFor .hHefty { State.reset with lenr := 80 } ∧
    headerHoldsFor .rRev State.reset := by
  refine ⟨⟨by decide, _, header_hashing 1⟩, ?_, trivial⟩
  rintro ⟨-, m, hm⟩
  exact absurd (hm.symm.trans (by decide : _ = none)) (by simp)

theorem witness_InstructionsLeaveInputsAlone : ∃ t, exec .hHefty (hashing 1) = .next t :=
  ⟨_, (execHHefty_next).2 ⟨by decide, _, header_hashing 1, rfl⟩⟩

/-- An instruction of each command, so that every clause is met. -/
theorem witness_InstructionsWriteTheirOwnCommandOnly :
    (commandOf .mMasks ≠ Op.hash ∧ isMicro .mMasks = true ∧ ∃ t, exec .mMasks masking = .next t) ∧
    (commandOf .rRev ≠ Op.deriveMasks ∧ ∃ t, exec .rRev reversing = .next t) ∧
    (commandOf .hKInit ≠ Op.bitrev32 ∧ ∃ t, exec .hKInit (hashing 3) = .next t) :=
  ⟨⟨by decide, rfl, _, rfl⟩, ⟨by decide, _, rfl⟩, by decide, _, rfl⟩

/-- A last micro-operation and another. -/
theorem witness_SuccessorOfEachMicroOperation :
    (decode (.useq 18) = .ok .rRev ∧ ∃ t, exec .rRev reversing = .next t) ∧
    (decode (.useq 3) = .ok .hKInit ∧ ∃ t, exec .hKInit (hashing 3) = .next t) := ⟨⟨rfl, _, rfl⟩, rfl, _, rfl⟩

theorem wf_loaded : loaded.hdr.wf := by decide +kernel

/-- While HASH runs, the control invariant holds from its first to its last micro-operation. -/
theorem control_hashing : ∀ u : BitVec 5, 1 ≤ u.toNat → u.toNat ≤ 15 → (hashing u).Control := by
  intro u h1 h2
  have h0 : u ≠ Useq.idle := by rintro rfl; exact absurd h1 (by decide)
  have h3 : u ≠ Useq.halt := by rintro rfl; exact absurd h2 (by decide)
  have h4 : u ≠ Useq.mTbits := by rintro rfl; exact absurd h2 (by decide)
  have h5 : u ≠ Useq.mMasks := by rintro rfl; exact absurd h2 (by decide)
  have h6 : u ≠ Useq.rRev := by rintro rfl; exact absurd h2 (by decide)
  exact
    { hdrWf := wf_loaded
      seqUsed := .inl (by change u.toNat ≤ 18; omega)
      statusIdle := fun h => absurd h h0
      statusBusy := fun _ _ => rfl
      statusHalt := fun h => absurd h h3
      noFault := fun _ => rfl
      latchHash := fun _ _ => ⟨rfl, .inr rfl⟩
      latchMask := fun h => h.elim (absurd · h4) (absurd · h5)
      latchRev := fun h => absurd h h6
      flagsHash := fun _ _ => by simp [hashing, loaded, State.reset]
      flagsCtx := by simp [hashing, loaded, State.reset]
      flagsMask := ⟨fun h => absurd h h4, fun h => absurd h h5⟩
      flagsRev := fun h => absurd h h6
      callsWf := by simp [hashing, loaded, State.reset] }

/-- The control invariant in HALT, which no HASH ran into. -/
theorem control_halted : halted.Control := by
  refine ⟨wf_loaded, .inr rfl, ?_, ?_, ?_, ?_, ?_, ?_, ?_, ?_, ?_, ?_, ?_, ?_⟩ <;> decide

theorem witness_StepKeepsControl :
    ((hashing 3).Control ∧ ∃ t, step (hashing 3) = .next t) ∧ halted.Control ∧ ∃ t, step halted = .next t :=
  ⟨⟨control_hashing 3 (by decide) (by decide), _, rfl⟩, control_halted, _, rfl⟩

/-- HASH at its last step, with every register it has written. -/
theorem witness_StepKeepsResultsCorrect :
    combining.Control ∧ combining.Results ∧ ∃ t, step combining = .next t := by
  have c := control_hashing 15 (by decide) (by decide)
  refine ⟨⟨c.1, c.2, c.3, c.4, c.5, c.6, c.7, c.8, c.9, c.10, c.11, c.12, c.13, c.14⟩, ⟨?_, ?_, ?_, ?_⟩, ?_⟩
  · refine fun _ _ => ⟨zeros84, header_hashing 15, ⟨fun _ => rfl, fun _ => rfl, fun _ => rfl, fun _ => rfl,
      fun _ => rfl, fun h => ?_⟩, ?_, ?_, ?_⟩
    · exact absurd h (by decide)
    all_goals exact ⟨fun h => absurd h (by decide), fun h => absurd h (by decide), fun h => absurd h (by decide)⟩
  · exact fun h => h.elim (fun h => absurd h (by decide)) (fun h => absurd h (by decide))
  · exact fun h => absurd h (by decide)
  · exact fun h => absurd h (by decide)
  · exact ⟨_, (step_of_micro (s := combining) (i := .hCombine) (turn_of_no_host rfl) rfl).trans
      ((execHCombine_next (s := combining)).2 rfl)⟩

theorem witness_StatusBitsExcludeOneAnother : (hashing 1).Control ∧ halted.Control :=
  ⟨control_hashing 1 (by decide) (by decide), control_halted⟩

/-- By the length fault, and by the reserved command code. -/
theorem witness_OnlyAcceptanceEntersHalt :
    ((presenting 0x101).seq ≠ Useq.halt ∧ after (step (presenting 0x101)) State.seq = some Useq.halt) ∧
    (presenting 0x000).seq ≠ Useq.halt ∧ after (step (presenting 0x000)) State.seq = some Useq.halt := by decide

theorem witness_OnlyResetLeavesHalt :
    let s : State := { halted with host := [.wrBrin 1] }
    s.seq = Useq.halt ∧ s.host.head? ≠ some .rst ∧ ∃ t, step s = .next t := ⟨rfl, by decide, _, rfl⟩

theorem witness_ResetStepGivesTheResetValues :
    ({ hashing 7 with cmd := some 0x151, host := [.rst] } : State).host = .rst :: [] := rfl

/-- A HASH in progress at its first and last micro-operation. -/
theorem witness_RunningCommandNeverStops :
    ((hashing 1).Control ∧ (hashing 1).turn = some (hashing 1) ∧ (hashing 1).inputsHold) ∧
    (hashing 15).Control ∧ (hashing 15).turn = some (hashing 15) ∧ (hashing 15).inputsHold :=
  ⟨⟨control_hashing 1 (by decide) (by decide), rfl, fun _ _ => ⟨_, header_hashing 1⟩⟩,
    control_hashing 15 (by decide) (by decide), rfl, fun _ _ => ⟨_, header_hashing 15⟩⟩

theorem witness_CommandReachesItsEnd :
    (hashing 1).Control ∧ (hashing 1).host = [] ∧ (hashing 1).busy = true ∧ (hashing 1).inputsHold :=
  ⟨control_hashing 1 (by decide) (by decide), rfl, by decide, fun _ _ => ⟨_, header_hashing 1⟩⟩

/-- With the longer header. -/
theorem witness_HashCommandComputesTheHash :
    (presenting 0x151).host = [] ∧ (presenting 0x151).seq = Useq.idle ∧
    (presenting 0x151).cmd = some (cmdWord 84 Op.hash) ∧
    (presenting 0x151).hdr.readBytes 0 (84 : BitVec 7).toNat = some zeros84 :=
  ⟨rfl, rfl, by decide, header_hashing 0⟩

/-- With the shorter header, nothing above it written. -/
theorem witness_HashMakesExactlyTheseEngineCalls :
    let s : State := { State.reset with hdr := Memory.writeBytes [] 0 (zeros84.take 80), cmd := some 0x141 }
    s.host = [] ∧ s.seq = Useq.idle ∧ s.cmd = some (cmdWord 80 Op.hash) ∧
    s.hdr.readBytes 0 (80 : BitVec 7).toNat = some (zeros84.take 80) := by decide +kernel

/-- Two states that agree below byte 80 and nowhere else; both runs have a next state by HashCommandComputesTheHash. -/
theorem witness_HashDependsOnTheHeaderAlone :
    let s : State := { State.reset with hdr := Memory.writeBytes [] 0 (zeros84.take 80), cmd := some 0x141 }
    let s' : State := { masking with seq := 0, hdr := Memory.writeBytes [] 0 (zeros84.take 83), cmd := some 0x141 }
    s.host = [] ∧ s'.host = [] ∧ s.seq = Useq.idle ∧ s'.seq = Useq.idle ∧
    s.cmd = some (cmdWord 80 Op.hash) ∧ s'.cmd = some (cmdWord 80 Op.hash) ∧
    s.hdr.readBytes 0 80 = some (zeros84.take 80) ∧ s'.hdr.readBytes 0 80 = some (zeros84.take 80) ∧
    ∀ a < (80 : BitVec 7).toNat, s.hdr.readByte a = s'.hdr.readByte a := by decide +kernel

theorem witness_DeriveMasksCommandComputesTheMasks :
    (presenting 0x002).host = [] ∧ (presenting 0x002).seq = Useq.idle ∧
    (presenting 0x002).cmd = some (cmdWord 0 Op.deriveMasks) ∧ (presenting 0x002).diffSet = true ∧
    ({ presenting 0x002 with diffSet := false } : State).diffSet = false := by decide

theorem witness_Bitrev32CommandReverses :
    (presenting 0x1FF).host = [] ∧ (presenting 0x1FF).seq = Useq.idle ∧
    (presenting 0x1FF).cmd = some (cmdWord 127 Op.bitrev32) ∧ (presenting 0x1FF).brinSet = true ∧
    ({ presenting 0x1FF with brinSet := false } : State).brinSet = false := by decide

/-- H_HEFTY with the first `update` of an engine, and two engines' `finalize`, one with a value and one without. -/
theorem witness_IndependentMicroOperationsCommute :
    (independent .hHefty .hKUpdIn ∧ ∃ a b, exec .hHefty (hashing 4) = .next a ∧ exec .hKUpdIn a = .next b) ∧
    independent .hKFin .hGFin ∧ ∃ a b, exec .hKFin (hashing 6) = .next a ∧ exec .hGFin a = .next b := by
  refine ⟨⟨by simp [independent, stageOf], _, _, execHHefty_next.2 ⟨by decide, _, header_hashing 4, rfl⟩,
    execHKUpdIn_next.2 ⟨by decide, _, header_hashing 4, rfl⟩⟩, ?_⟩
  exact ⟨by simp [independent, stageOf], _, _, execHKFin_next.2 rfl, execHGFin_next.2 rfl⟩

/-- A write that ends at the last byte and one that ends after it, with BUSY 0 and with BUSY 1. -/
theorem witness_HostWritesHeaderBytes : 84 < 83 + ([1, 2] : Bytes).length ∧
    ([1, 2] : Bytes) ≠ [] ∧ 82 + ([1, 2] : Bytes).length ≤ 84 ∧ loaded.busy = false ∧ (hashing 1).busy = true := by
  decide

/-- Each side of each clause: the first and the last byte of HDR and the address after it, an unwritten byte. -/
theorem witness_HostReadsResultsWhenValid :
    (∀ f, ({ State.reset with
      h1V := true, h2V := true, aux1V := true, aux2V := true, aux3V := true, kcV := true, gcV := true, bcV := true,
      outV := true, tbitsV := true, maskV := true, brV := true } : State).flag f = true) ∧
    State.reset.busy = false ∧ (∀ f, State.reset.flag f = false) ∧ (hashing 1).busy = true ∧
    loaded.hdr.readByte 0 = some 0 ∧ loaded.hdr.readByte 83 = some 0 ∧ State.reset.hdr.readByte 83 = none ∧
    State.reset.diffSet = false ∧ loaded.diffSet = true ∧ State.reset.brinSet = false ∧ loaded.brinSet = true :=
  ⟨fun f => by cases f <;> rfl, rfl, fun f => by cases f <;> rfl, rfl, rfl, rfl, rfl, rfl, rfl, rfl, rfl⟩

theorem witness_HashScriptReturnsTheCombinedHash :
    let s : State := { State.reset with host := hashScript (zeros84.take 80) ++ [.rst] }
    ((zeros84.take 80).length = 80 ∨ (zeros84.take 80).length = 84) ∧ s.seq = Useq.idle ∧ s.busy = false ∧
    s.host = hashScript (zeros84.take 80) ++ [.rst] := by decide +kernel

theorem witness_InstancesShareNoState :
    ∃ Q, Platform.step 1 (⟨#v[hashing 3, reversing, halted], by decide⟩ : Platform 3) = .next Q := ⟨_, rfl⟩

end Sys2Proof.Tests
end

section
/-! The micro-operations, once: what each does to the latches, SEQ, STATUS, the valid flags and the record of engine
calls (spec/10_state.md R31, R33 to R35). -/

namespace Sys2Proof.Machine

/-- What micro-operation `i` writes into valid flag `f`; `none` where it leaves the flag (R35). -/
def flagWritten : Instr → Flag → Option Bool
  | .hHefty, .h1 | .hSha, .h2 => some true
  | .hKInit, .kc | .hGInit, .gc | .hBInit, .bc => some true
  | .hKFin, .kc | .hGFin, .gc | .hBFin, .bc => some false
  | .hKFin, .aux1 | .hGFin, .aux2 | .hBFin, .aux3 => some true
  | .hCombine, .out | .mTbits, .tbits | .mMasks, .mask | .rRev, .br => some true
  | _, _ => none

/-- Every recorded engine call has a legal length (spec/20_memory.md R78). -/
def callsLegal (l : List EngineCall) : Prop := ∀ c ∈ l, c.wellFormed = true

theorem callsLegal.append {l : List EngineCall} {c : EngineCall} (hl : callsLegal l) (hc : c.wellFormed = true) :
    callsLegal (l ++ [c]) := by
  intro d hd
  rcases List.mem_append.1 hd with h | h
  · exact hl d h
  · rwa [List.mem_singleton.1 h]

/-- With a legal LENR the header string has a legal length (spec/20_memory.md R61). -/
theorem length_header_legal {s : State} {m : Bytes} (h : s.header = some m) (hl : s.lenr = 80 ∨ s.lenr = 84) :
    m.length = 80 ∨ m.length = 84 := by
  rw [length_header h]
  rcases hl with hl | hl <;> simp [hl]

/-- The message of an `update` with the header is legal. -/
theorem wellFormed_update_header {s : State} {m : Bytes} (e : AuxEngine) (h : s.header = some m)
    (hl : s.lenr = 80 ∨ s.lenr = 84) : (EngineCall.update e m).wellFormed = true := by
  rcases length_header_legal h hl with h | h <;> simp [EngineCall.wellFormed, h]

/-- The message of an `update` with H1 is legal. -/
theorem wellFormed_update_h1 (e : AuxEngine) (h1 : Vector Byte 32) :
    (EngineCall.update e h1.toList).wellFormed = true := by
  simp [EngineCall.wellFormed]

/-- What a step of micro-operation `i` can do: the latches and FAULTINFO stay, SEQ takes the successor, STATUS changes
only at the end of a command, the flags change as `flagWritten` says, and a new engine call has a legal length. -/
structure MicroStep (i : Instr) (u : BitVec 5) (s t : State) : Prop where
  opr : t.opr = s.opr
  lenr : t.lenr = s.lenr
  faultInfo : t.faultInfo = s.faultInfo
  seq : t.seq = successor u
  status : t.status = if successor u = Useq.idle then (s.status ||| 0x02) &&& ~~~0x01 else s.status
  flag : ∀ f, t.flag f = (flagWritten i f).getD (s.flag f)
  calls : (u.toNat ≤ 15 → s.lenr = 80 ∨ s.lenr = 84) → callsLegal s.engineCalls → callsLegal t.engineCalls

theorem microStep_of_exec {i : Instr} {u : BitVec 5} {s t : State} (hu : encode i = .useq u)
    (h : exec i s = .next t) : MicroStep i u s t := by
  cases i <;> cases hu
  case hHefty | hSha =>
    simp only [exec, execHHefty_next, execHSha_next] at h
    obtain ⟨-, m, hm, rfl⟩ := h
    refine ⟨rfl, rfl, rfl, rfl, rfl, fun f => by cases f <;> rfl, fun hl hc => hc.append ?_⟩
    rcases length_header_legal hm (hl (by decide)) with h | h <;> simp [EngineCall.wellFormed, h]
  case hKUpdIn | hGUpdIn | hBUpdIn =>
    simp only [exec, execHKUpdIn_next, execHGUpdIn_next, execHBUpdIn_next] at h
    obtain ⟨-, m, hm, rfl⟩ := h
    exact ⟨rfl, rfl, rfl, rfl, rfl, fun f => by cases f <;> rfl,
      fun hl hc => hc.append (wellFormed_update_header _ hm (hl (by decide)))⟩
  case hKUpdH1 | hGUpdH1 | hBUpdH1 =>
    simp only [exec, execHKUpdH1_next, execHGUpdH1_next, execHBUpdH1_next] at h
    subst h
    exact ⟨rfl, rfl, rfl, rfl, rfl, fun f => by cases f <;> rfl, fun _ hc => hc.append (wellFormed_update_h1 _ _)⟩
  case hKInit | hGInit | hBInit | hKFin | hGFin | hBFin =>
    simp only [exec, execHKInit_next, execHGInit_next, execHBInit_next, execHKFin_next, execHGFin_next,
      execHBFin_next] at h
    subst h
    exact ⟨rfl, rfl, rfl, rfl, rfl, fun f => by cases f <;> rfl, fun _ hc => hc.append rfl⟩
  case hCombine | mTbits | mMasks | rRev =>
    simp only [exec, execHCombine_next, execMTbits_next, execMMasks_next, execRRev_next] at h
    subst h
    exact ⟨rfl, rfl, rfl, rfl, rfl, fun f => by cases f <;> rfl, fun _ hc => hc⟩

end Sys2Proof.Machine
end

section
/-! What an instruction leaves alone: the inputs, the host's fields and the registers of the other commands
(spec/10_state.md R22, R29, R35, R41). -/

namespace Sys2Proof.Machine

/-- `s` with the control registers as in `t`, and the registers and flags of command `op` as in `t`. -/
def ownFields (op : BitVec 2) (s t : State) : State :=
  let hash : State := if op = Op.hash then t else s
  let masks : State := if op = Op.deriveMasks then t else s
  let rev : State := if op = Op.bitrev32 then t else s
  { s with
    opr := t.opr, lenr := t.lenr, seq := t.seq, status := t.status, faultInfo := t.faultInfo
    h1 := hash.h1, h2 := hash.h2, aux1 := hash.aux1, aux2 := hash.aux2, aux3 := hash.aux3, out := hash.out
    kc := hash.kc, gc := hash.gc, bc := hash.bc, acc := hash.acc, bitCount := hash.bitCount
    engineCalls := hash.engineCalls
    h1V := hash.h1V, h2V := hash.h2V, aux1V := hash.aux1V, aux2V := hash.aux2V, aux3V := hash.aux3V
    kcV := hash.kcV, gcV := hash.gcV, bcV := hash.bcV, outV := hash.outV
    tbits := masks.tbits, mask := masks.mask, tbitsV := masks.tbitsV, maskV := masks.maskV
    brout := rev.brout, brV := rev.brV }

/-- The frame of every instruction. -/
theorem exec_eq_ownFields {i : Instr} {s t : State} (h : exec i s = .next t) : t = ownFields (commandOf i) s t := by
  cases i
  case hHefty | hSha | hKUpdIn | hGUpdIn | hBUpdIn =>
    simp only [exec, execHHefty_next, execHSha_next, execHKUpdIn_next, execHGUpdIn_next, execHBUpdIn_next] at h
    obtain ⟨-, m, -, rfl⟩ := h
    rfl
  case hKInit | hGInit | hBInit | hKUpdH1 | hGUpdH1 | hBUpdH1 | hKFin | hGFin | hBFin | hCombine | mTbits | mMasks |
      rRev =>
    simp only [exec, execHKInit_next, execHGInit_next, execHBInit_next, execHKUpdH1_next, execHGUpdH1_next,
      execHBUpdH1_next, execHKFin_next, execHGFin_next, execHBFin_next, execHCombine_next, execMTbits_next,
      execMMasks_next, execRRev_next] at h
    subst h
    rfl
  case hash len =>
    obtain ⟨-, rfl⟩ | ⟨-, rfl⟩ := execHash_next.1 h
    · split <;> rfl
    · rfl
  case deriveMasks len => obtain ⟨-, rfl⟩ | ⟨-, rfl⟩ := execDeriveMasks_next.1 h <;> rfl
  case bitrev32 len => obtain ⟨-, rfl⟩ | ⟨-, rfl⟩ := execBitrev32_next.1 h <;> rfl
  case reservedOp0 len => obtain ⟨-, rfl⟩ | ⟨-, rfl⟩ := execReservedOp0_next.1 h <;> rfl

/-- A micro-operation is what its SEQ code encodes. -/
theorem encode_of_isMicro {i : Instr} (h : isMicro i = true) : ∃ u, encode i = .useq u := by
  cases i
  case hash | deriveMasks | bitrev32 | reservedOp0 => cases h
  all_goals exact ⟨_, rfl⟩

end Sys2Proof.Machine

open Sys2Proof Sys2Proof.Machine

/-- Settles O39: the inputs and the host's fields stand outside the frame of every instruction. -/
theorem instructionsLeaveInputsAlone : Obligations.InstructionsLeaveInputsAlone := by
  intro i s t h
  rw [exec_eq_ownFields h]
  exact ⟨fun _ => rfl, rfl, rfl, rfl, rfl, rfl, rfl, rfl, rfl, rfl, rfl⟩

/-- Settles O40: the frame of an instruction holds the registers of its own command, and a micro-operation leaves the
latches. -/
theorem instructionsWriteTheirOwnCommandOnly : Obligations.InstructionsWriteTheirOwnCommandOnly := by
  intro i s t h
  refine ⟨fun hi => ?_, fun hi => ?_, fun hi => ?_, fun hi => ?_⟩
  · rw [exec_eq_ownFields h]
    simp only [ownFields, if_neg hi, and_self]
  · rw [exec_eq_ownFields h]
    simp only [ownFields, if_neg hi, and_self]
  · rw [exec_eq_ownFields h]
    simp only [ownFields, if_neg hi, and_self]
  · obtain ⟨u, hu⟩ := encode_of_isMicro hi
    have m := microStep_of_exec hu h
    exact ⟨m.opr, m.lenr, m.faultInfo⟩
end

section
/-! Where the sequencer goes after a micro-operation (spec/10_state.md R31, spec/30_encoding.md R97). -/

namespace Sys2Proof.Machine

/-- The SEQ code a micro-operation is decoded from is its encoding. -/
theorem encode_of_decodeUseq {u : BitVec 5} {i : Instr} (h : decodeUseq u = .ok i) : encode i = .useq u := by
  obtain ⟨k, hk, rfl⟩ : ∃ k < 32, u = BitVec.ofNat 5 k := ⟨u.toNat, u.isLt, by simp⟩
  interval_cases k <;> cases h <;> rfl

/-- The micro-operations are the SEQ codes 1 to 18. -/
theorem decodeUseq_range {u : BitVec 5} {i : Instr} (h : decodeUseq u = .ok i) : 1 ≤ u.toNat ∧ u.toNat ≤ 18 := by
  obtain ⟨k, hk, rfl⟩ : ∃ k < 32, u = BitVec.ofNat 5 k := ⟨u.toNat, u.isLt, by simp⟩
  interval_cases k <;> cases h <;> decide

/-- The step a decoded SEQ code takes. -/
theorem microStep_of_decode {u : BitVec 5} {i : Instr} {s t : State} (hd : decodeUseq u = .ok i)
    (h : exec i s = .next t) : MicroStep i u s t :=
  microStep_of_exec (encode_of_decodeUseq hd) h

/-- After the last micro-operation of a command comes IDLE (R97). -/
theorem successor_of_last {u : BitVec 5} (h : u = 15 ∨ u = 17 ∨ u = 18) : successor u = Useq.idle := by
  rcases h with rfl | rfl | rfl <;> rfl

/-- After any other comes the next code (R97). -/
theorem successor_of_not_last :
    ∀ u : BitVec 5, 1 ≤ u.toNat → u.toNat ≤ 18 → ¬ (u = 15 ∨ u = 17 ∨ u = 18) →
      successor u = u + 1 ∧ successor u ≠ Useq.idle := by
  decide

/-- BUSY and DONE at the end of a command; the other bits stay. -/
theorem status_at_end {s t : State} (h : t.status = withBusyDone s.status false true) :
    t.busy = false ∧ t.done = true ∧ ∀ b, 2 ≤ b → t.status.getLsbD b = s.status.getLsbD b := by
  refine ⟨?_, ?_, fun b hb => ?_⟩
  · rw [State.busy, h, getLsbD_withBusyDone]
    rfl
  · rw [State.done, h, getLsbD_withBusyDone]
    rfl
  · rw [h, getLsbD_withBusyDone, if_neg (by omega), if_neg (by omega)]

end Sys2Proof.Machine

open Sys2Proof Sys2Proof.Machine

/-- Settles O41: a micro-operation takes the successor of its code, and the successor is IDLE after the last. -/
theorem successorOfEachMicroOperation : Obligations.SuccessorOfEachMicroOperation := by
  intro u i s t hd h
  have m := microStep_of_decode hd h
  obtain ⟨h1, h18⟩ := decodeUseq_range hd
  split
  next hlast =>
    have hidle := successor_of_last hlast
    refine ⟨m.seq.trans hidle, status_at_end ?_⟩
    rw [m.status, if_pos hidle, withBusyDone_finish]
  next hlast =>
    obtain ⟨hnext, hne⟩ := successor_of_not_last u h1 h18 hlast
    exact ⟨m.seq.trans hnext, by rw [m.status, if_neg hne]⟩
end

section
/-! The control invariant (spec/10_state.md R30 to R35, spec/20_memory.md R78) is kept by every step. -/

namespace Sys2Proof.Machine

/-- What the control invariant says of valid flag `f` at SEQ code `u`; `none` where it says nothing. -/
def flagAt (u : BitVec 5) (f : Flag) : Option Bool :=
  let inHash (b : Bool) : Option Bool := if 1 ≤ u.toNat ∧ u.toNat ≤ 15 then some b else none
  match f with
  | .h1 => inHash (2 ≤ u.toNat)
  | .h2 => inHash (3 ≤ u.toNat)
  | .aux1 => inHash (7 ≤ u.toNat)
  | .aux2 => inHash (11 ≤ u.toNat)
  | .aux3 => inHash (15 ≤ u.toNat)
  | .out => inHash false
  | .kc => some (4 ≤ u.toNat ∧ u.toNat ≤ 6)
  | .gc => some (8 ≤ u.toNat ∧ u.toNat ≤ 10)
  | .bc => some (12 ≤ u.toNat ∧ u.toNat ≤ 14)
  | .tbits => if u = Useq.mTbits then some false else if u = Useq.mMasks then some true else none
  | .mask => if u = Useq.mTbits ∨ u = Useq.mMasks then some false else none
  | .br => if u = Useq.rRev then some false else none

/-- The flags are as the control invariant says at their state's SEQ. -/
def State.flagsAgree (s : State) : Prop := ∀ f b, flagAt s.seq f = some b → s.flag f = b

/-- A flag is a condition's truth value when it is set exactly under that condition. -/
theorem eq_decide_iff {a : Bool} {p : Prop} [Decidable p] : a = decide p ↔ (a = true ↔ p) := by
  rw [Bool.eq_iff_iff, decide_eq_true_iff]

/-- The flag clauses of the control invariant are `flagsAgree`. -/
theorem State.Control.flagsAgree {s : State} (h : s.Control) : s.flagsAgree := by
  obtain ⟨hkc, hgc, hbc⟩ := h.flagsCtx
  obtain ⟨hT, hM⟩ := h.flagsMask
  intro f b hb
  cases f <;> simp only [flagAt, Option.ite_none_right_eq_some, Option.some.injEq] at hb
  case h1 | h2 | aux1 | aux2 | aux3 =>
    obtain ⟨⟨h1, h15⟩, rfl⟩ := hb
    obtain ⟨fH1, fH2, fAux1, fAux2, fAux3, -⟩ := h.flagsHash h1 h15
    exact eq_decide_iff.2 (by assumption)
  case out =>
    obtain ⟨⟨h1, h15⟩, rfl⟩ := hb
    obtain ⟨-, -, -, -, -, fOut⟩ := h.flagsHash h1 h15
    exact fOut
  case kc | gc | bc =>
    subst hb
    exact eq_decide_iff.2 (by assumption)
  case tbits =>
    split at hb
    next hu =>
      cases hb
      exact (hT hu).1
    next =>
      obtain ⟨hu, hb⟩ := Option.ite_none_right_eq_some.1 hb
      cases hb
      exact (hM hu).1
  case mask =>
    obtain ⟨hu | hu, rfl⟩ := hb
    · exact (hT hu).2
    · exact (hM hu).2
  case br =>
    obtain ⟨hu, rfl⟩ := hb
    exact h.flagsRev hu

/-- A micro-operation writes what the control invariant asks of the flags at its successor. -/
theorem flagAt_successor {u : BitVec 5} {i : Instr} (h : decodeUseq u = .ok i) (f : Flag) (b : Bool) :
    flagAt (successor u) f = some b → (flagWritten i f).or (flagAt u f) = some b := by
  obtain ⟨k, hk, rfl⟩ : ∃ k < 32, u = BitVec.ofNat 5 k := ⟨u.toNat, u.isLt, by simp⟩
  interval_cases k <;> cases h <;> cases f <;> revert b <;> decide

/-- The flag clauses of the control invariant, from `flagsAgree`. -/
theorem State.flagsAgree.clauses {s : State} (h : s.flagsAgree) :
    (1 ≤ s.seq.toNat → s.seq.toNat ≤ 15 →
      (s.h1V = true ↔ 2 ≤ s.seq.toNat) ∧ (s.h2V = true ↔ 3 ≤ s.seq.toNat) ∧
      (s.aux1V = true ↔ 7 ≤ s.seq.toNat) ∧ (s.aux2V = true ↔ 11 ≤ s.seq.toNat) ∧
      (s.aux3V = true ↔ 15 ≤ s.seq.toNat) ∧ s.outV = false) ∧
    ((s.kcV = true ↔ 4 ≤ s.seq.toNat ∧ s.seq.toNat ≤ 6) ∧
      (s.gcV = true ↔ 8 ≤ s.seq.toNat ∧ s.seq.toNat ≤ 10) ∧
      (s.bcV = true ↔ 12 ≤ s.seq.toNat ∧ s.seq.toNat ≤ 14)) ∧
    ((s.seq = Useq.mTbits → s.tbitsV = false ∧ s.maskV = false) ∧
      (s.seq = Useq.mMasks → s.tbitsV = true ∧ s.maskV = false)) ∧
    (s.seq = Useq.rRev → s.brV = false) := by
  refine ⟨fun h1 h15 => ?_, ?_, ⟨fun hu => ?_, fun hu => ?_⟩, fun hu => h .br _ (if_pos hu)⟩
  · have hin (b : Bool) : (if 1 ≤ s.seq.toNat ∧ s.seq.toNat ≤ 15 then some b else none) = some b :=
      if_pos ⟨h1, h15⟩
    exact ⟨eq_decide_iff.1 (h .h1 _ (hin _)), eq_decide_iff.1 (h .h2 _ (hin _)), eq_decide_iff.1 (h .aux1 _ (hin _)),
      eq_decide_iff.1 (h .aux2 _ (hin _)), eq_decide_iff.1 (h .aux3 _ (hin _)), h .out _ (hin _)⟩
  · exact ⟨eq_decide_iff.1 (h .kc _ rfl), eq_decide_iff.1 (h .gc _ rfl), eq_decide_iff.1 (h .bc _ rfl)⟩
  · exact ⟨h .tbits _ (if_pos hu), h .mask _ (if_pos (.inl hu))⟩
  · exact ⟨h .tbits _ (by rw [hu]; rfl), h .mask _ (if_pos (.inr hu))⟩

/-- The control invariant at IDLE (R32, R34). -/
theorem control_of_idle {s : State} (hseq : s.seq = Useq.idle) (hdr : s.hdr.wf)
    (hst : s.status = 0x00 ∨ s.status = 0x02) (hfi : s.faultInfo = 0) (hf : s.flagsAgree)
    (hcalls : callsLegal s.engineCalls) : s.Control := by
  obtain ⟨fHash, fCtx, fMask, fRev⟩ := hf.clauses
  refine ⟨hdr, ?_, fun _ => hst, ?_, ?_, fun _ => hfi, ?_, ?_, ?_, fHash, fCtx, fMask, fRev, hcalls⟩ <;> simp [hseq]

/-- The control invariant while a command runs, at code `u` (R32 to R34). -/
theorem control_of_running {s : State} (u : BitVec 5) (hu : s.seq = u) (h1 : 1 ≤ u.toNat) (h18 : u.toNat ≤ 18)
    (hdr : s.hdr.wf) (hst : s.status = 0x01) (hfi : s.faultInfo = 0)
    (hHash : u.toNat ≤ 15 → s.opr = Op.hash ∧ (s.lenr = 80 ∨ s.lenr = 84))
    (hMask : u = Useq.mTbits ∨ u = Useq.mMasks → s.opr = Op.deriveMasks)
    (hRev : u = Useq.rRev → s.opr = Op.bitrev32) (hf : s.flagsAgree)
    (hcalls : callsLegal s.engineCalls) : s.Control := by
  subst hu
  obtain ⟨fHash, fCtx, fMask, fRev⟩ := hf.clauses
  refine ⟨hdr, .inl h18, fun h => ?_, fun _ _ => hst, fun h => ?_, fun _ => hfi, fun _ => hHash, hMask, hRev, fHash,
    fCtx, fMask, fRev, hcalls⟩
  · rw [h] at h1; contradiction
  · rw [h] at h18; contradiction

/-- The control invariant in HALT (R32, R34). -/
theorem control_of_halt {s : State} (hseq : s.seq = Useq.halt) (hdr : s.hdr.wf)
    (hst : (s.status = 0x04 ∧ cmdOp s.faultInfo = Op.hash ∧ cmdLen s.faultInfo ≠ 80 ∧ cmdLen s.faultInfo ≠ 84) ∨
      (s.status = 0x08 ∧ cmdOp s.faultInfo = Op.reserved)) (hf : s.flagsAgree)
    (hcalls : callsLegal s.engineCalls) : s.Control := by
  obtain ⟨fHash, fCtx, fMask, fRev⟩ := hf.clauses
  refine ⟨hdr, .inr hseq, ?_, ?_, fun _ => hst, ?_, ?_, ?_, ?_, fHash, fCtx, fMask, fRev, hcalls⟩ <;> simp [hseq]

/-- Of the fields a host action writes the control invariant says only that HDR is in canonical form. -/
theorem State.Control.with_inputs {s : State} (hc : s.Control) {m : Memory} (hm : m.wf) {d : BitVec 64} {ds : Bool}
    {b : Word} {bs : Bool} {c : Option (BitVec 9)} {h : List HostAct} {r : List ReadBack} {chip resets : Nat} :
    ({ s with
      hdr := m, diff := d, diffSet := ds, brin := b, brinSet := bs, cmd := c, host := h, reads := r, chip := chip,
      resets := resets } : State).Control :=
  { hc with hdrWf := hm }

theorem control_reset : State.reset.Control :=
  control_of_idle rfl wf_nil (.inl rfl) rfl (fun f b hb => by cases f <;> cases hb <;> rfl)
    (fun _ h => nomatch h)

/-- Outside a run of HASH the contexts hold no value (R35, R37). -/
theorem State.Control.contexts_at_idle {s : State} (hc : s.Control) (h0 : s.seq = Useq.idle) :
    s.kcV = false ∧ s.gcV = false ∧ s.bcV = false := by
  have hf := hc.flagsAgree
  rw [State.flagsAgree, h0] at hf
  exact ⟨hf .kc _ rfl, hf .gc _ rfl, hf .bc _ rfl⟩

/-- The successor of a micro-operation that is not the last of its command belongs to the same command. -/
theorem successor_of_running :
    ∀ u : BitVec 5, 1 ≤ u.toNat → u.toNat ≤ 18 → successor u ≠ Useq.idle →
      1 ≤ (successor u).toNat ∧ (successor u).toNat ≤ 18 ∧ ((successor u).toNat ≤ 15 → u.toNat ≤ 15) ∧
      successor u ≠ Useq.mTbits ∧ (successor u = Useq.mMasks → u = Useq.mTbits) ∧ successor u ≠ Useq.rRev := by
  decide

/-- With SEQ not IDLE a command word changes nothing (R94). -/
theorem command_not_taken {i : Instr} {s t : State} (hi : isMicro i = false) (hs : s.seq ≠ Useq.idle)
    (h : exec i s = .next t) : t = s := by
  cases i <;> cases hi
  case hash => exact ((execHash_next.1 h).resolve_left fun h => hs h.1).2
  case deriveMasks => exact ((execDeriveMasks_next.1 h).resolve_left fun h => hs h.1).2
  case bitrev32 => exact ((execBitrev32_next.1 h).resolve_left fun h => hs h.1).2
  case reservedOp0 => exact ((execReservedOp0_next.1 h).resolve_left fun h => hs h.1).2

/-- A micro-operation keeps the flags as the control invariant says. -/
theorem MicroStep.flagsAgree {i : Instr} {s t : State} (m : MicroStep i s.seq s t) (hd : decodeUseq s.seq = .ok i)
    (hs : s.flagsAgree) : t.flagsAgree := by
  intro f b hb
  rw [m.seq] at hb
  have hw := flagAt_successor hd f b hb
  rw [m.flag]
  cases hfw : flagWritten i f with
  | some c => simpa [hfw] using hw
  | none => exact hs f b (by simpa [hfw] using hw)

/-- A micro-operation keeps the control invariant. -/
theorem micro_keeps_control {i : Instr} {s t : State} (hc : s.Control) (hd : decodeUseq s.seq = .ok i)
    (h : exec i s = .next t) : t.Control := by
  have m := microStep_of_decode hd h
  obtain ⟨h1, h18⟩ := decodeUseq_range hd
  have hne : s.seq ≠ Useq.idle := fun h => by rw [h] at h1; contradiction
  have hnh : s.seq ≠ Useq.halt := fun h => by rw [h] at h18; contradiction
  have hst := hc.statusBusy hne hnh
  have hdr : t.hdr.wf := by rw [exec_eq_ownFields h]; exact hc.hdrWf
  have hfi : t.faultInfo = 0 := m.faultInfo.trans (hc.noFault hnh)
  have hflags : t.flagsAgree := m.flagsAgree hd hc.flagsAgree
  have hcalls : callsLegal t.engineCalls := m.calls (fun h15 => (hc.latchHash h1 h15).2) hc.callsWf
  by_cases hlast : successor s.seq = Useq.idle
  · have hdone : t.status = 0x02 := by rw [m.status, if_pos hlast, hst]; rfl
    exact control_of_idle (m.seq.trans hlast) hdr (.inr hdone) hfi hflags hcalls
  · obtain ⟨hs1, hs18, hHash, hT, hM, hR⟩ := successor_of_running s.seq h1 h18 hlast
    refine control_of_running _ m.seq hs1 hs18 hdr ?_ hfi (fun h15 => ?_) (fun hu => ?_) (fun hu => absurd hu hR)
      hflags hcalls
    · rw [m.status, if_neg hlast, hst]
    · rw [m.opr, m.lenr]
      exact hc.latchHash h1 (hHash h15)
    · rw [m.opr]
      exact hc.latchMask (.inl (hM (hu.resolve_left hT)))

/-- STATUS at IDLE becomes BUSY alone when a command starts (R94). -/
theorem status_start {st : BitVec 8} (h : st = 0x00 ∨ st = 0x02) : (st ||| 0x01) &&& ~~~0x02 = 0x01 := by
  rcases h with rfl | rfl <;> rfl

/-- STATUS at IDLE becomes ERR_LEN alone by the length fault (R193). -/
theorem status_errLen {st : BitVec 8} (h : st = 0x00 ∨ st = 0x02) : (st ||| 0x04) &&& ~~~0x03 = 0x04 := by
  rcases h with rfl | rfl <;> rfl

/-- STATUS at IDLE becomes ERR_OP alone by the reserved-command fault (R193). -/
theorem status_errOp {st : BitVec 8} (h : st = 0x00 ∨ st = 0x02) : (st ||| 0x08) &&& ~~~0x03 = 0x08 := by
  rcases h with rfl | rfl <;> rfl

/-- A command word keeps the control invariant. -/
theorem command_keeps_control {i : Instr} {s t : State} (hi : isMicro i = false) (hc : s.Control)
    (h : exec i s = .next t) : t.Control := by
  by_cases h0 : s.seq = Useq.idle
  case neg => rwa [command_not_taken hi h0 h]
  obtain ⟨hkc, hgc, hbc⟩ := hc.contexts_at_idle h0
  have hst := hc.statusIdle h0
  have hfi := hc.noFault (by rw [h0]; decide)
  cases i
  case hash len =>
    obtain rfl := ((execHash_next.1 h).resolve_right fun h => h.1 h0).2
    split
    next hl =>
      exact control_of_running Useq.hHefty rfl (by decide) (by decide) hc.hdrWf (status_start hst) hfi
        (fun _ => ⟨rfl, hl⟩) (fun h => absurd h (by decide)) (fun h => absurd h (by decide))
        (fun f b hb => by cases f <;> cases hb <;> rfl) hc.callsWf
    next hl =>
      have hfault : cmdOp (cmdWord len Op.hash) = Op.hash ∧ cmdLen (cmdWord len Op.hash) ≠ 80 ∧
          cmdLen (cmdWord len Op.hash) ≠ 84 := by
        simpa [not_or] using hl
      exact control_of_halt rfl hc.hdrWf (.inl ⟨status_errLen hst, hfault⟩)
        (fun f b hb => by cases f <;> cases hb <;> assumption) hc.callsWf
  case reservedOp0 len =>
    obtain rfl := ((execReservedOp0_next.1 h).resolve_right fun h => h.1 h0).2
    exact control_of_halt rfl hc.hdrWf (.inr ⟨status_errOp hst, cmdOp_cmdWord _ _⟩)
      (fun f b hb => by cases f <;> cases hb <;> assumption) hc.callsWf
  case deriveMasks len =>
    obtain rfl := ((execDeriveMasks_next.1 h).resolve_right fun h => h.1 h0).2
    exact control_of_running Useq.mTbits rfl (by decide) (by decide) hc.hdrWf (status_start hst) hfi
      (fun h => absurd h (by decide)) (fun _ => rfl) (fun h => absurd h (by decide))
      (fun f b hb => by cases f <;> cases hb <;> simp [State.flag, hkc, hgc, hbc]) hc.callsWf
  case bitrev32 len =>
    obtain rfl := ((execBitrev32_next.1 h).resolve_right fun h => h.1 h0).2
    exact control_of_running Useq.rRev rfl (by decide) (by decide) hc.hdrWf (status_start hst) hfi
      (fun h => absurd h (by decide)) (fun h => absurd h (by decide)) (fun _ => rfl)
      (fun f b hb => by cases f <;> cases hb <;> simp [State.flag, hkc, hgc, hbc]) hc.callsWf
  all_goals cases hi

/-- A write of at least one byte inside HDR is well formed (spec/20_memory.md R62). -/
theorem wellFormed_wrHdr (a : Nat) (bs : Bytes) :
    (HostAct.wrHdr a bs).wellFormed = true ↔ bs ≠ [] ∧ a + bs.length ≤ 84 := by
  simp [HostAct.wellFormed]

/-- A host action keeps the control invariant. -/
theorem hostAct_keeps_control {a : HostAct} {s t : State} (hc : s.Control) (h : hostAct a s = .next t) :
    t.Control := by
  cases a
  case wrHdr addr bytes =>
    simp only [hostAct] at h
    split at h
    next hw =>
      obtain ⟨-, rfl⟩ := hostWrite_next.1 h
      obtain ⟨-, hlen⟩ := (wellFormed_wrHdr _ _).1 hw
      exact hc.with_inputs (wf_writeBytes _ _ _ hc.hdrWf hlen)
    next => cases h
  case wrDiff x =>
    obtain ⟨-, rfl⟩ := hostWrite_next.1 h
    exact hc.with_inputs hc.hdrWf
  case wrBrin w =>
    obtain ⟨-, rfl⟩ := hostWrite_next.1 h
    exact hc.with_inputs hc.hdrWf
  case read r =>
    obtain ⟨v, -, rfl⟩ := hostRead_next.1 h
    exact hc.with_inputs hc.hdrWf
  case rst =>
    cases h
    exact control_reset.with_inputs wf_nil
  case present | withdraw | hold | wait | tick =>
    cases h
    exact hc.with_inputs hc.hdrWf

/-- A command word is no micro-operation. -/
theorem isMicro_decodeCmd (c : BitVec 9) : isMicro (decodeCmd c) = false := by
  unfold decodeCmd
  split_ifs <;> rfl

end Sys2Proof.Machine

open Sys2Proof Sys2Proof.Machine

/-- Settles O42: a step is a host action, the acceptance of a command word, a micro-operation or no change, and each
keeps the invariant. -/
theorem stepKeepsControl : Obligations.StepKeepsControl := by
  intro s u hc h
  rcases step_cases h with ⟨a, r, -, -, ha⟩ | ⟨t, ht, hstep⟩
  · exact hostAct_keeps_control (hc.with_inputs hc.hdrWf) ha
  · have hct : t.Control := by
      rw [turn_eq ht]
      exact hc.with_inputs hc.hdrWf
    rcases hstep with ⟨-, -, rfl⟩ | ⟨c, -, -, hx⟩ | ⟨-, rfl⟩ | ⟨i, hd, hx⟩
    · exact hct
    · exact command_keeps_control (isMicro_decodeCmd c) (hct.with_inputs hct.hdrWf) hx
    · exact hct
    · exact micro_keeps_control hct hd hx

/-- Settles O45: at IDLE, in HALT and in between the invariant names the values STATUS can have. -/
theorem statusBitsExcludeOneAnother : Obligations.StatusBitsExcludeOneAnother := by
  intro s hc
  simp only [State.busy, State.done, State.errLen, State.errOp]
  by_cases h0 : s.seq = 0#5
  · rcases hc.statusIdle h0 with h | h <;> simp [h, h0]
  by_cases h31 : s.seq = 31#5
  · rcases hc.statusHalt h31 with ⟨h, -⟩ | ⟨h, -⟩ <;> simp [h, h31]
  · simp [hc.statusBusy h0 h31, h0, h31]
end

section
/-! The bit budget: its range (spec/10_state.md R29, spec/42_maskderiver.md R172). -/

namespace Sys2Proof.Machine

/-- The exponent of a positive finite pattern in normal form is at most 1023 (R164). -/
theorem normaliseIn_exponent_le {d : BitVec 64} (h : positiveFinite d = true) :
    (normaliseIn Config.diffFormat d).2 ≤ 1023 := by
  obtain ⟨-, hexp, -⟩ := (positiveFinite_iff d).1 h
  by_cases hn : 1 ≤ expOf d
  · have hlt : expOf d < 2 ^ 11 := (d.extractLsb' 52 11).isLt
    rw [normaliseIn_normal hn]
    dsimp only
    omega
  · have hlt : fracOf d < 2 ^ 52 := (d.extractLsb' 0 52).isLt
    have hlog : Nat.log2 (fracOf d) < 52 := by
      by_cases h0 : fracOf d = 0
      · rw [h0]; decide
      · exact (Nat.log2_lt h0).2 hlt
    rw [normaliseIn_subnormal hn]
    simp only [bitLength]
    omega

/-- LOG2ROUND is at most 1024 (R172). -/
theorem log2Round_le {d : BitVec 64} (h : positiveFinite d = true) : Config.log2Round d ≤ 1024 := by
  have := normaliseIn_exponent_le h
  rw [log2Round_eq]
  split <;> omega

/-- The bit budget as R162 and R163 write it. -/
theorem deriveTbits_eq (d : BitVec 64) :
    deriveTbits d = if positiveFinite d then (max (31 + Config.log2Round d) 16).toNat else 16 := rfl

end Sys2Proof.Machine

open Sys2Proof Sys2Proof.Machine

/-- Settles O30: LOG2ROUND is at most 1024, and the clamp keeps the budget from 16 on. -/
theorem bitBudgetIsInRange : Obligations.BitBudgetIsInRange := by
  intro d
  have hrange : 16 ≤ deriveTbits d ∧ deriveTbits d ≤ 1055 := by
    rw [deriveTbits_eq]
    split
    next h =>
      have := log2Round_le h
      omega
    next => omega
  obtain ⟨hlo, hhi⟩ := hrange
  refine ⟨hlo, hhi, ?_⟩
  rw [BitVec.toNat_ofNat, Nat.mod_eq_of_lt (by omega)]
end

section
/-! When an instruction completes, and what an operand that holds no value does (spec/10_state.md R31, R40). -/

namespace Sys2Proof.Machine

/-- The micro-operations that read the header (spec/20_memory.md R61). -/
def headerReaders : List Instr := [.hHefty, .hSha, .hKUpdIn, .hGUpdIn, .hBUpdIn]

/-- A micro-operation that reads the header does nothing else that can stop. -/
theorem exec_headerReader {i : Instr} (hi : i ∈ headerReaders) (s : State) :
    ∃ k : Bytes → State, exec i s = withHeader s fun m => .next (k m) := by
  simp only [headerReaders, List.mem_cons, List.not_mem_nil, or_false] at hi
  rcases hi with rfl | rfl | rfl | rfl | rfl <;> exact ⟨_, rfl⟩

/-- Every other instruction answers a next state in every state. -/
theorem exec_completes {i : Instr} (hi : i ∉ headerReaders) (s : State) : ∃ t, exec i s = .next t := by
  cases i
  case hHefty | hSha | hKUpdIn | hGUpdIn | hBUpdIn => exact absurd (by simp [headerReaders]) hi
  case hash | deriveMasks | bitrev32 | reservedOp0 =>
    simp only [exec, execHash, execDeriveMasks, execBitrev32, execReservedOp0, acceptCommand]
    split <;> exact ⟨_, rfl⟩
  all_goals exact ⟨_, rfl⟩

/-- The header operand concerns the five readers alone. -/
theorem headerHoldsFor_iff (i : Instr) (s : State) : headerHoldsFor i s ↔ (i ∈ headerReaders → s.headerHolds) := by
  cases i <;> simp [headerHoldsFor, headerReaders]

/-- An instruction is never refused: a header reader stops with a fault. -/
theorem withHeader_ne_refused (s : State) (k : Bytes → State) (r : Refusal) :
    withHeader s (fun m => .next (k m)) ≠ .refused r := by
  unfold withHeader
  split
  · exact nofun
  · split <;> exact nofun

theorem withHeader_of_long {s : State} (h : Config.hdrSize < s.lenr.toNat) (k : Bytes → Out) :
    withHeader s k = .fault .noSuchAddress := if_pos h

theorem withHeader_of_missing {s : State} (hl : s.lenr.toNat ≤ Config.hdrSize) (h : s.header = none)
    (k : Bytes → Out) : withHeader s k = .fault .headerNoValue := by
  simp [withHeader, Nat.not_lt.2 hl, h]

/-- A legal LENR is inside HDR. -/
theorem lenr_le_hdrSize {s : State} (h : s.lenr = 80 ∨ s.lenr = 84) : s.lenr.toNat ≤ Config.hdrSize := by
  rcases h with h | h <;> rw [h] <;> decide

end Sys2Proof.Machine

open Sys2Proof Sys2Proof.Machine

/-- Settles O37: only a header reader can stop, exactly where its header is not there, and then with a fault. -/
theorem execCompletesExactlyWhenTheHeaderHolds : Obligations.ExecCompletesExactlyWhenTheHeaderHolds := by
  intro i s
  rw [headerHoldsFor_iff]
  by_cases hi : i ∈ headerReaders
  · obtain ⟨k, hk⟩ := exec_headerReader hi s
    rw [hk]
    refine ⟨?_, withHeader_ne_refused s k⟩
    simp [withHeader_next, hi, State.headerHolds]
  · obtain ⟨t, ht⟩ := exec_completes hi s
    rw [ht]
    exact ⟨⟨fun _ h => absurd h hi, fun _ => ⟨t, rfl⟩⟩, nofun⟩

/-- Settles O38: a header reader stops at its header; every other operand is read through its `…Value`, which without
a value is the free value. -/
theorem operandWithoutAValue : Obligations.OperandWithoutAValue := by
  intro s
  obtain ⟨vDiff, vBrin, vH1, -, -, -, -, vTbits, vKc, vGc, vBc⟩ := value_of_not_holds s
  refine ⟨fun i hi => ?_, fun m hl hm => ⟨fun h => ?_, fun h => ?_, fun h => ?_, fun h => ?_⟩,
    fun _ => ⟨_, execHKUpdH1_next.2 rfl, rfl⟩, fun _ => ⟨_, execHGUpdH1_next.2 rfl, rfl⟩,
    fun _ => ⟨_, execHBUpdH1_next.2 rfl, rfl⟩, fun h => ?_, fun h => ?_, fun h => ?_,
    fun _ => ⟨_, execHCombine_next.2 rfl, rfl⟩, fun h => ?_, fun h => ?_, fun h => ?_⟩
  · obtain ⟨k, hk⟩ := exec_headerReader hi s
    rw [hk]
    exact ⟨fun h => withHeader_of_long h _, fun hl h => withHeader_of_missing hl h _⟩
  · rw [← vH1 h]
    exact ⟨_, execHSha_next.2 ⟨lenr_le_hdrSize hl, m, hm, rfl⟩, rfl⟩
  · rw [← vKc h]
    exact ⟨_, execHKUpdIn_next.2 ⟨lenr_le_hdrSize hl, m, hm, rfl⟩, rfl⟩
  · rw [← vGc h]
    exact ⟨_, execHGUpdIn_next.2 ⟨lenr_le_hdrSize hl, m, hm, rfl⟩, rfl⟩
  · rw [← vBc h]
    exact ⟨_, execHBUpdIn_next.2 ⟨lenr_le_hdrSize hl, m, hm, rfl⟩, rfl⟩
  · rw [← vKc h]
    exact ⟨_, execHKFin_next.2 rfl, by rw [← h]; rfl⟩
  · rw [← vGc h]
    exact ⟨_, execHGFin_next.2 rfl, by rw [← h]; rfl⟩
  · rw [← vBc h]
    exact ⟨_, execHBFin_next.2 rfl, by rw [← h]; rfl⟩
  · rw [← vDiff h]
    exact execMTbits_next.2 rfl
  · rw [← vTbits h]
    exact execMMasks_next.2 rfl
  · rw [← vBrin h]
    exact execRRev_next.2 rfl
end

section
/-! The step, reset, the host's accesses and the platform (spec/10_state.md R30, R33, R41, R42, R45). -/

namespace Sys2Proof.Machine

/-- The host's inputs are written with BUSY = 0 only (R41). -/
theorem hostWrite_of_busy {s t : State} (h : s.busy = true) : hostWrite s t = .fault .hostWriteWhileBusy := if_pos h

theorem hostWrite_of_not_busy {s t : State} (h : s.busy = false) : hostWrite s t = .next t :=
  hostWrite_next.2 ⟨h, rfl⟩

/-- A written byte reads as written. -/
theorem readByte_writeBytes_inside (m : Memory) (a : Nat) (bs : Bytes) {i : Nat} (hi : i < bs.length) :
    (m.writeBytes a bs).readByte (a + i) = bs[i]? := by
  rw [readByte_writeBytes, if_pos (Nat.le_add_right a i), Nat.add_sub_cancel_left, List.getElem?_eq_getElem hi]
  rfl

/-- A byte outside the written range reads as before. -/
theorem readByte_writeBytes_outside (m : Memory) (a : Nat) (bs : Bytes) {b : Nat} (hb : b < a ∨ a + bs.length ≤ b) :
    (m.writeBytes a bs).readByte b = m.readByte b := by
  rw [readByte_writeBytes]
  split
  next hab =>
    rw [List.getElem?_eq_none (by omega)]
    rfl
  next => rfl

/-- What a host read answers is recorded. -/
theorem hostRead_of_ok {s : State} {r : HostReg} {v : List Nat} (h : readReg s r = .ok v) :
    hostAct (.read r) s = .next { s with reads := s.reads ++ [⟨r, v⟩] } :=
  hostRead_next.2 ⟨v, h, rfl⟩

/-- When the host may take a result (R41). -/
theorem readable_iff {s : State} {f : Flag} : s.readable f = true ↔ s.busy = false ∧ s.flag f = true := by
  simp [State.readable]

theorem hostRead_of_error {s : State} {r : HostReg} {f : Fault} (h : readReg s r = .error f) :
    hostAct (.read r) s = .fault f := by
  simp only [hostAct, hostRead, h]

end Sys2Proof.Machine

open Sys2Proof Sys2Proof.Machine

/-- Settles O57: a well-formed write reaches HDR and nothing else, and BUSY stops each of the three writes. -/
theorem hostWritesHeaderBytes : Obligations.HostWritesHeaderBytes := by
  refine ⟨fun s a bs hne hlen => ?_, fun s a bs hbad => ?_, fun s x w => ⟨fun hb => ?_, fun hb => ?_⟩⟩
  · have hact : hostAct (.wrHdr a bs) s = hostWrite s { s with hdr := s.hdr.writeBytes a bs } :=
      if_pos ((wellFormed_wrHdr a bs).2 ⟨hne, hlen⟩)
    rw [hact]
    refine ⟨hostWrite_of_busy, fun hb => ⟨_, hostWrite_of_not_busy hb, rfl, fun i hi => ?_, fun b hb => ?_⟩⟩
    · exact readByte_writeBytes_inside _ _ _ hi
    · exact readByte_writeBytes_outside _ _ _ hb
  · refine if_neg fun h => ?_
    obtain ⟨hne, hlen⟩ := (wellFormed_wrHdr a bs).1 h
    exact hbad.elim hne (Nat.not_lt.2 hlen)
  · exact ⟨hostWrite_of_busy hb, hostWrite_of_busy hb⟩
  · exact ⟨hostWrite_of_not_busy hb, hostWrite_of_not_busy hb⟩

/-- Settles O58: each read is recorded with what `readReg` answers. -/
theorem hostReadsResultsWhenValid : Obligations.HostReadsResultsWhenValid := by
  intro s
  obtain ⟨vDiff, vBrin, -⟩ := value_of_holds s
  obtain ⟨nDiff, nBrin, -⟩ := value_of_not_holds s
  refine ⟨fun p hp => ?_, fun p hp => ?_, fun f => hostRead_of_ok rfl,
    fun a => ⟨fun ha => ?_, fun ha hn => ?_, fun v ha hv => ?_⟩, fun h => ?_, fun h => ?_, fun h => ?_, fun h => ?_⟩
  · have hread : readReg s p.1 = .ok (if s.readable p.2.1 then p.2.2.1 else p.2.2.2) := by
      simp only [List.mem_cons, List.not_mem_nil, or_false] at hp
      rcases hp with rfl | rfl | rfl | rfl | rfl | rfl | rfl | rfl | rfl <;>
        simp only [readReg, valueOf] <;> split <;> rfl
    refine ⟨fun hb hf => hostRead_of_ok (hread.trans ?_), fun h => hostRead_of_ok (hread.trans ?_)⟩
    · rw [if_pos (readable_iff.2 ⟨hb, hf⟩)]
    · rw [if_neg fun hr => ?_]
      obtain ⟨hb, hf⟩ := readable_iff.1 hr
      simp [hb, hf] at h
  · simp only [List.mem_cons, List.not_mem_nil, or_false] at hp
    rcases hp with rfl | rfl | rfl | rfl | rfl | rfl <;> exact hostRead_of_ok rfl
  · exact hostRead_of_error (if_pos ha)
  · exact hostRead_of_error (by simp [readReg, ha, hn])
  · exact hostRead_of_ok (by simp [readReg, ha, hv])
  · exact hostRead_of_ok (by rw [readReg, nDiff h])
  · exact hostRead_of_ok (by rw [readReg, vDiff h])
  · exact hostRead_of_ok (by rw [readReg, nBrin h])
  · exact hostRead_of_ok (by rw [readReg, vBrin h])

/-- Settles O60: a platform step puts back the state that stepped and no other. -/
theorem instancesShareNoState : Obligations.InstancesShareNoState := by
  intro n P k
  refine ⟨fun Q hQ => ?_, fun t ht => ⟨_, Platform.step_next.2 ⟨t, ht, rfl⟩⟩⟩
  obtain ⟨t, ht, rfl⟩ := Platform.step_next.1 hQ
  exact ⟨fun j hj => Platform.put_other P hj t, by rw [ht]; simp⟩

/-- Settles O4: the four cases of the sequencer's move. -/
theorem stepRunsTheDecodedInstruction : Obligations.StepRunsTheDecodedInstruction := by
  intro s t ht
  refine ⟨fun c i h0 hc hi => ?_, fun i hi => step_of_micro ht hi, step_of_idle ht, step_of_halt ht⟩
  cases hi
  exact step_of_command ht h0 hc

/-- Settles O44: the reset state meets both invariants, the result invariant because no flag is set. -/
theorem invariantsHoldAtReset : Obligations.InvariantsHoldAtReset := by
  have hchain (m : Bytes) : State.reset.chainHolds Config.engines m := ⟨nofun, nofun, nofun, nofun, nofun, nofun⟩
  exact ⟨control_reset, ⟨fun h => absurd h (by decide), fun _ => ⟨List.replicate 80 0, .inl rfl, hchain _⟩, nofun,
    nofun⟩⟩
end

section
/-! The word view and the byte view (spec/20_memory.md R64, R65). -/

namespace Sys2Proof.Machine

/-! ## Four bytes and one word -/

/-- Big-endian is little-endian of the bytes in reverse, so what follows is argued for little-endian only. -/
theorem wordOf_big (b0 b1 b2 b3 : Byte) : wordOf .big b0 b1 b2 b3 = wordOf .little b3 b2 b1 b0 := rfl

theorem byteOf_big (w : Word) (j : Nat) : byteOf .big w j = byteOf .little w (3 - j) := rfl

/-- A byte put below a bit string is the low digit, to base 2^8, of the number. -/
theorem toNat_append_byte {m : Nat} (x : BitVec m) (b : Byte) : (x ++ b).toNat = b.toNat + 2 ^ 8 * x.toNat := by
  rw [BitVec.toNat_append, ← Nat.shiftLeft_add_eq_or_of_lt b.isLt, Nat.shiftLeft_eq]
  omega

theorem toNat_wordOf_little (b0 b1 b2 b3 : Byte) :
    (wordOf .little b0 b1 b2 b3).toNat = b0.toNat + 2 ^ 8 * b1.toNat + 2 ^ 16 * b2.toNat + 2 ^ 24 * b3.toNat := by
  simp only [wordOf, toNat_append_byte]
  omega

theorem toNat_wordOf_big (b0 b1 b2 b3 : Byte) :
    (wordOf .big b0 b1 b2 b3).toNat = 2 ^ 24 * b0.toNat + 2 ^ 16 * b1.toNat + 2 ^ 8 * b2.toNat + b3.toNat := by
  rw [wordOf_big, toNat_wordOf_little]
  omega

/-- Byte `j` of a little-endian word is digit `j`, to base 2^8, of the number. -/
theorem toNat_byteOf_little (w : Word) (j : Nat) :
    (byteOf .little w j).toNat = w.toNat / 2 ^ (8 * j) % 2 ^ 8 := by
  rw [byteOf, BitVec.extractLsb'_toNat, Nat.shiftRight_eq_div_pow]

theorem byteOf_wordOf_little (b0 b1 b2 b3 : Byte) :
    byteOf .little (wordOf .little b0 b1 b2 b3) 0 = b0 ∧ byteOf .little (wordOf .little b0 b1 b2 b3) 1 = b1 ∧
    byteOf .little (wordOf .little b0 b1 b2 b3) 2 = b2 ∧ byteOf .little (wordOf .little b0 b1 b2 b3) 3 = b3 := by
  simp only [← BitVec.toNat_inj, toNat_byteOf_little, toNat_wordOf_little]
  omega

/-- Byte `k` of the word made of four bytes is the `k`-th of them. -/
theorem byteOf_wordOf (o : ByteOrder) (f : Fin 4 → Byte) (k : Fin 4) :
    byteOf o (wordOf o (f 0) (f 1) (f 2) (f 3)) k.val = f k := by
  cases o with
  | little =>
    obtain ⟨h0, h1, h2, h3⟩ := byteOf_wordOf_little (f 0) (f 1) (f 2) (f 3)
    fin_cases k <;> assumption
  | big =>
    obtain ⟨h0, h1, h2, h3⟩ := byteOf_wordOf_little (f 3) (f 2) (f 1) (f 0)
    fin_cases k <;> assumption

theorem wordOf_byteOf_little (w : Word) :
    wordOf .little (byteOf .little w 0) (byteOf .little w 1) (byteOf .little w 2) (byteOf .little w 3) = w := by
  rw [← BitVec.toNat_inj]
  simp only [toNat_wordOf_little, toNat_byteOf_little]
  omega

/-- The four bytes of a word make that word. -/
theorem wordOf_byteOf (o : ByteOrder) (w : Word) :
    wordOf o (byteOf o w 0) (byteOf o w 1) (byteOf o w 2) (byteOf o w 3) = w := by
  cases o with
  | little => exact wordOf_byteOf_little w
  | big => exact wordOf_byteOf_little w

/-! ## The two views -/

/-- The byte view at byte `k` of word `i`. -/
theorem getElem_bytesOf_word (o : ByteOrder) {n : Nat} (x : Vector Word n) {i k : Nat} (hi : i < n) (hk : k < 4) :
    (bytesOf o x)[4 * i + k]'(by omega) = byteOf o x[i] k := by
  have hdiv : (4 * i + k) / 4 = i := by omega
  have hmod : (4 * i + k) % 4 = k := by omega
  simp only [getElem_bytesOf, hdiv, hmod]

/-- A byte of a word of the word view is that byte of the string. -/
theorem byteOf_getElem_wordsOf (o : ByteOrder) {n : Nat} (s : Vector Byte (4 * n)) {i : Nat} (hi : i < n) (k : Fin 4) :
    byteOf o (wordsOf o n s)[i] k.val = s[4 * i + k.val] := by
  rw [getElem_wordsOf]
  exact byteOf_wordOf o (fun k => s[4 * i + k.val]) k

theorem wordsOf_bytesOf (o : ByteOrder) {n : Nat} (x : Vector Word n) : wordsOf o n (bytesOf o x) = x := by
  ext1 i hi
  have h (k : Nat) (hk : k < 4) := getElem_bytesOf_word o x hi hk
  have h0 : (bytesOf o x)[4 * i] = byteOf o x[i] 0 := h 0 (by omega)
  rw [getElem_wordsOf, h0, h 1 (by omega), h 2 (by omega), h 3 (by omega), wordOf_byteOf]

theorem bytesOf_wordsOf (o : ByteOrder) {n : Nat} (s : Vector Byte (4 * n)) : bytesOf o (wordsOf o n s) = s := by
  ext1 j hj
  rw [getElem_bytesOf]
  have h := byteOf_getElem_wordsOf o s (i := j / 4) (by omega) ⟨j % 4, by omega⟩
  simpa only [Nat.div_add_mod] using h

end Sys2Proof.Machine

open Sys2Proof Sys2Proof.Machine

/-- Settles O17: each word is four bytes of the string put side by side. -/
theorem wordViewOfBytes : Obligations.WordViewOfBytes := by
  intro n s i hi
  have h (k : Nat) (hk : k < 4) : s[4 * i + k]! = s[4 * i + k] := getElem!_pos s _ _
  rw [h 1 (by omega), h 2 (by omega), h 3 (by omega), getElem!_pos s (4 * i) (by omega), getElem!_pos _ i hi,
    getElem!_pos _ i hi, getElem_wordsOf, getElem_wordsOf]
  exact ⟨toNat_wordOf_little _ _ _ _, toNat_wordOf_big _ _ _ _⟩

/-- Settles O18: word by word, and byte by byte. -/
theorem byteViewInvertsWordView : Obligations.ByteViewInvertsWordView :=
  fun o _ x s => ⟨wordsOf_bytesOf o x, bytesOf_wordsOf o s⟩
end

section
/-! The two formats (spec/30_encoding.md R90, R93 to R97): decoding against encoding, and what the codes without a
meaning do. -/

namespace Sys2Proof

/-- A command word is its two fields (R90). -/
theorem cmdWord_fields (c : BitVec 9) : cmdWord (cmdLen c) (cmdOp c) = c := by
  apply BitVec.eq_of_getLsbD_eq
  intro i hi
  rw [cmdWord, BitVec.getLsbD_append]
  by_cases h : i < 2
  · simp [cmdOp, h]
  · simp [cmdLen, h, show i - 2 < 7 by omega, show 2 + (i - 2) = i by omega]

/-- The instruction of a command word encodes to the word. -/
theorem encode_decodeCmd (c : BitVec 9) : encode (decodeCmd c) = .cmd c := by
  have hop : cmdOp c = Op.hash ∨ cmdOp c = Op.deriveMasks ∨ cmdOp c = Op.bitrev32 ∨ cmdOp c = Op.reserved := by
    generalize cmdOp c = op
    revert op
    decide
  have hword := cmdWord_fields c
  rcases hop with h | h | h | h <;> rw [h] at hword <;> simpa [decodeCmd, h, encode] using hword

/-- An instruction's row of the table says that its encoding decodes to it. -/
theorem decode_of_tableRow {i : Instr} (h : Laws.TableRow.Statement i) : decode (encode i) = .ok i := by
  obtain ⟨-, -, -, hdecode⟩ := h
  exact hdecode

/-- The encoding of an instruction decodes to it. -/
theorem decode_encode (i : Instr) : decode (encode i) = .ok i := by
  cases i
  case hash len => exact decode_of_tableRow (Laws.TableRow.hash len)
  case deriveMasks len => exact decode_of_tableRow (Laws.TableRow.deriveMasks len)
  case bitrev32 len => exact decode_of_tableRow (Laws.TableRow.bitrev32 len)
  case reservedOp0 len => exact decode_of_tableRow (Laws.TableRow.reservedOp0 len)
  all_goals rfl

/-- The SEQ codes 19 to 30 name nothing (R93). -/
theorem decodeUseq_of_unused {u : BitVec 5} (h19 : 19 ≤ u.toNat) (h30 : u.toNat ≤ 30) :
    decodeUseq u = .error .unusedCode := by
  revert u
  decide

end Sys2Proof

namespace Sys2Proof.Machine

/-- A step that finds a SEQ code naming no micro-operation, neither IDLE nor HALT, is refused (R93). -/
theorem step_of_unused {s t : State} (ht : s.turn = some t) (hd : decodeUseq t.seq = .error .unusedCode) :
    step s = .refused .unusedSeqCode := by
  have h0 : t.seq ≠ Useq.idle := fun h => by rw [h] at hd; cases hd
  have h1 : t.seq ≠ Useq.halt := fun h => by rw [h] at hd; cases hd
  simp only [step, fetch_of_turn ht, sequencerMove]
  rw [if_neg h0, if_neg h1, hd]

/-- A step that is not the sequencer's is the host's next action (log 11). -/
theorem step_of_no_turn {s : State} {a : HostAct} {r : List HostAct} (hh : s.host = a :: r) (ht : s.turn = none) :
    step s = hostAct a { s with host := r } := by
  simp only [step, fetch_of_no_turn hh ht]

/-- A command word reads no header. -/
theorem not_mem_headerReaders {i : Instr} (hi : isMicro i = false) : i ∉ headerReaders := by
  intro h
  have hmicro : ∀ j ∈ headerReaders, isMicro j = true := by decide
  rw [hmicro i h] at hi
  cases hi

end Sys2Proof.Machine

open Sys2Proof Sys2Proof.Machine

/-- Settles O2: on command words the two fields make the word again, on SEQ codes both tables have the same rows. -/
theorem decodeInvertsEncode : Obligations.DecodeInvertsEncode := by
  intro c i
  constructor
  · intro h
    cases c with
    | cmd c =>
      cases h
      exact encode_decodeCmd c
    | useq u => exact encode_of_decodeUseq h
  · rintro rfl
    exact decode_encode i

/-- Settles O1: each word is evaluated. -/
theorem tableWordsDecode : Obligations.TableWordsDecode :=
  ⟨rfl, rfl, rfl, rfl, rfl, rfl, rfl, rfl, rfl, rfl, rfl⟩

/-- Settles O3: the decoder of command words is a total function, and the sequencer refuses what decodes to no
micro-operation. -/
theorem commandDecodingIsTotalAndUnusedCodesRefuse : Obligations.CommandDecodingIsTotalAndUnusedCodesRefuse := by
  refine ⟨fun c => ⟨decodeCmd c, rfl⟩, fun s t ht h19 h30 => ?_⟩
  have hd := decodeUseq_of_unused h19 h30
  exact ⟨hd, step_of_unused ht hd⟩

/-- Settles O5: a finished wait is a host action that changes nothing. -/
theorem stepPerformsTheHostAction : Obligations.StepPerformsTheHostAction := by
  intro s a r hh ht
  have hstep := step_of_no_turn hh ht
  refine ⟨hstep, fun ha => ?_⟩
  rcases ha with rfl | rfl <;> exact hstep

/-- Settles O6: a command word always answers, and with SEQ not IDLE only with the state it found. -/
theorem commandIsNotTakenUnlessIdle : Obligations.CommandIsNotTakenUnlessIdle := by
  intro i s hi hs
  obtain ⟨t, ht⟩ := exec_completes (not_mem_headerReaders hi) s
  rw [ht, command_not_taken hi hs ht]

/-- Settles O7: acceptance of HASH, in the branch of a legal length. -/
theorem hashOfLegalLengthStarts : Obligations.HashOfLegalLengthStarts := by
  intro len s h0 hlen
  exact execHash_next.2 (.inl ⟨h0, (if_pos hlen).symm⟩)

/-- Settles O10: acceptance of DERIVE_MASKS, which looks at no length. -/
theorem deriveMasksStarts : Obligations.DeriveMasksStarts := by
  intro len s h0
  exact execDeriveMasks_next.2 (.inl ⟨h0, rfl⟩)
end

section
/-! The partial order of the hash chain (spec/30_encoding.md R98): a micro-operation reads and writes the registers of
its own engine, and of the others reads H1 alone. -/

namespace Sys2Proof.Machine

/-- `s` after a micro-operation of engine `e` (numbered as by `stageOf`) that made `call` and led to `t`: the
registers and flags of the engine are those of `t`, and so is SEQ. -/
def withEngine (e : Nat) (t : State) (call : EngineCall) (s : State) : State :=
  { s with
    h1 := if e = 0 then t.h1 else s.h1, h1V := if e = 0 then t.h1V else s.h1V
    h2 := if e = 1 then t.h2 else s.h2, h2V := if e = 1 then t.h2V else s.h2V
    kc := if e = 2 then t.kc else s.kc, kcV := if e = 2 then t.kcV else s.kcV
    aux1 := if e = 2 then t.aux1 else s.aux1, aux1V := if e = 2 then t.aux1V else s.aux1V
    gc := if e = 3 then t.gc else s.gc, gcV := if e = 3 then t.gcV else s.gcV
    aux2 := if e = 3 then t.aux2 else s.aux2, aux2V := if e = 3 then t.aux2V else s.aux2V
    bc := if e = 4 then t.bc else s.bc, bcV := if e = 4 then t.bcV else s.bcV
    aux3 := if e = 4 then t.aux3 else s.aux3, aux3V := if e = 4 then t.aux3V else s.aux3V
    seq := t.seq
    engineCalls := s.engineCalls ++ [call] }

/-- Engine `f` is neither that of the micro-operation at stage `k` of engine `e` nor gives it an operand (R98). -/
def outsideOf (e k f : Nat) : Prop := f ≠ e ∧ (f = 0 → 2 ≤ e ∧ k ≤ 1)

/-- A micro-operation of the chain writes its engine's registers, with values that hang on no register of an engine
outside of it. -/
theorem exec_chain_local {i : Instr} {e k : Nat} {s t : State} (hi : stageOf i = some (e, k))
    (h : exec i s = .next t) :
    ∃ p, t = withEngine e t p s ∧ ∀ f u q, outsideOf e k f →
      exec i (withEngine f u q s) = .next (withEngine e t p (withEngine f u q s)) := by
  cases i <;> cases hi
  case hHefty | hKUpdIn | hGUpdIn | hBUpdIn =>
    simp only [exec, execHHefty_next, execHKUpdIn_next, execHGUpdIn_next, execHBUpdIn_next] at h ⊢
    obtain ⟨hl, m, hm, rfl⟩ := h
    refine ⟨_, rfl, fun f u q ⟨hf, _⟩ => ⟨hl, m, hm, ?_⟩⟩
    simp only [withEngine, if_neg hf]
    rfl
  case hSha =>
    simp only [exec, execHSha_next] at h ⊢
    obtain ⟨hl, m, hm, rfl⟩ := h
    refine ⟨_, rfl, fun f u q ⟨hf, hh1⟩ => ⟨hl, m, hm, ?_⟩⟩
    have h0 : f ≠ 0 := by omega
    simp only [withEngine, if_neg hf, if_neg h0]
    rfl
  case hKUpdH1 | hGUpdH1 | hBUpdH1 =>
    simp only [exec, execHKUpdH1_next, execHGUpdH1_next, execHBUpdH1_next] at h ⊢
    subst h
    refine ⟨_, rfl, fun f u q ⟨hf, hh1⟩ => ?_⟩
    have h0 : f ≠ 0 := by omega
    simp only [withEngine, if_neg hf, if_neg h0]
    rfl
  case hKInit | hGInit | hBInit | hKFin | hGFin | hBFin =>
    simp only [exec, execHKInit_next, execHGInit_next, execHBInit_next, execHKFin_next, execHGFin_next,
      execHBFin_next] at h ⊢
    subst h
    refine ⟨_, rfl, fun f u q ⟨hf, _⟩ => ?_⟩
    simp only [withEngine, if_neg hf]
    rfl

/-- Whether the header operand is there depends on HDR and LENR alone. -/
theorem headerHoldsFor_congr {i : Instr} {s t : State} (hdr : t.hdr = s.hdr) (hlenr : t.lenr = s.lenr) :
    headerHoldsFor i t ↔ headerHoldsFor i s := by
  simp only [headerHoldsFor_iff, State.headerHolds, header_congr hdr hlenr, hlenr]

/-- A micro-operation of the chain does not decide whether an instruction completes after it. -/
theorem exec_completes_withEngine {j : Instr} {e : Nat} {t s b : State} {p : EngineCall}
    (h : exec j (withEngine e t p s) = .next b) : ∃ c, exec j s = .next c := by
  have hheader := (execCompletesExactlyWhenTheHeaderHolds j _).1.1 ⟨b, h⟩
  exact (execCompletesExactlyWhenTheHeaderHolds j s).1.2 ((headerHoldsFor_congr rfl rfl).1 hheader)

/-- Two updates under conditions that exclude each other change places. -/
theorem ite_swap {α : Type} {p q : Prop} [Decidable p] [Decidable q] (h : p → ¬ q) (x y z : α) :
    (if p then x else if q then y else z) = if q then y else if p then x else z := by
  by_cases hp : p
  · simp [hp, h hp]
  · simp [hp]

/-- What two engines write is the same in either order, but for SEQ and the order of the calls. -/
theorem withEngine_comm {e f : Nat} (hne : e ≠ f) (t u s : State) (p q : EngineCall) :
    sameValues (withEngine f u q (withEngine e t p s)) (withEngine e t p (withEngine f u q s)) := by
  have hexcl (n : Nat) : f = n → ¬ e = n := fun hf he => hne (he.trans hf.symm)
  constructor
  · simp only [withEngine, ite_swap (hexcl _)]
  · simp only [withEngine, List.append_assoc]
    exact (List.Perm.swap q p []).append_left s.engineCalls

/-- Micro-operations in no order have their stages at engines outside of one another. -/
theorem independent_stages {i j : Instr} (h : independent i j) :
    ∃ e a f b, stageOf i = some (e, a) ∧ stageOf j = some (f, b) ∧ e ≠ f ∧ outsideOf e a f ∧ outsideOf f b e := by
  unfold independent at h
  split at h
  next e a f b hi hj =>
    obtain ⟨hne, he, hf⟩ := h
    exact ⟨e, a, f, b, hi, hj, hne, ⟨hne.symm, hf⟩, ⟨hne, he⟩⟩
  next => exact h.elim

end Sys2Proof.Machine

open Sys2Proof Sys2Proof.Machine

/-- Settles O56: each of the two does after the other what it does without it, and what they write is apart. -/
theorem independentMicroOperationsCommute : Obligations.IndependentMicroOperationsCommute := by
  intro i j s a b hij ha hb
  obtain ⟨e, k, f, l, hi, hj, hne, hf, he⟩ := independent_stages hij
  obtain ⟨p, hap, hilocal⟩ := exec_chain_local hi ha
  rw [hap] at hb
  obtain ⟨c, hc⟩ := exec_completes_withEngine hb
  obtain ⟨q, hcq, hjlocal⟩ := exec_chain_local hj hc
  have hb' : b = withEngine f c q (withEngine e a p s) :=
    Host.Outcome.next.inj (hb.symm.trans (hjlocal e a p he))
  refine ⟨c, withEngine e a p (withEngine f c q s), hc, ?_, ?_⟩
  · exact (congrArg (exec i) hcq).trans (hilocal f c q hf)
  · rw [hb']
    exact withEngine_comm hne a c s p q
end

section
/-! A whole HASH, driven by the host (spec/30_encoding.md R99, R100, spec/40_hashchain.md R110). -/

namespace Sys2Proof.Machine

/-- The first step of a run of any machine behind the host's interface. -/
theorem run_succ {M : Host.Core} {s t : M.State} (h : M.step s = .next t) (k : Nat) :
    M.run (k + 1) s = M.run k t := by
  rw [Host.Core.run, h]

/-- A run goes on from where its first part ends. -/
theorem run_add {M : Host.Core} {j : Nat} {s t : M.State} (h : M.run j s = .next t) (k : Nat) :
    M.run (j + k) s = M.run k t := by
  induction j generalizing s with
  | zero =>
    cases h
    rw [Nat.zero_add]
  | succ j ih =>
    rw [Host.Core.run] at h
    split at h
    next u hu => rw [Nat.succ_add, run_succ hu, ih h]
    next => cases h
    next => cases h

/-- The first step of a run of the block. -/
theorem run_of_step {s t : State} {o : Out} {k : Nat} (h : step s = .next t)
    (hk : Host.Core.run Sys2Proof.core k t = o) : Host.Core.run Sys2Proof.core (k + 1) s = o :=
  (run_succ (M := Sys2Proof.core) h k).trans hk

/-- The host lets a command in progress run to its end: it has no action left, or waits while BUSY = 1. -/
def State.letsRun (s : State) : Prop := s.host = [] ∨ s.busy = true ∧ ∃ r, s.host = .wait :: r

theorem turn_of_letsRun {s : State} (h : s.letsRun) : s.turn = some s := by
  rcases h with hh | ⟨hb, r, hh⟩
  · exact turn_of_no_host hh
  · simp [State.turn, hh, hb]

/-- One micro-operation of a run. -/
theorem run_micro {s t : State} {o : Out} {k : Nat} (i : Instr) (hrun : s.letsRun) (hd : decodeUseq s.seq = .ok i)
    (hx : exec i s = .next t) (hk : Host.Core.run Sys2Proof.core k t = o) :
    Host.Core.run Sys2Proof.core (k + 1) s = o :=
  run_of_step ((step_of_micro (turn_of_letsRun hrun) hd).trans hx) hk

/-- A context after its two updates, before it is consumed (R110, R128; log 25). -/
def fedContext {κ : Type} (C : ContextEngine κ) (m h1 : Bytes) : κ := C.update (C.update C.init m) h1

/-- The engine calls of one HASH of header `m` (R128). -/
def hashCalls (m h1 : Bytes) : List EngineCall :=
  [.hefty1 m, .sha256 (m ++ h1),
    .init .keccak, .update .keccak m, .update .keccak h1, .finalize .keccak,
    .init .groestl, .update .groestl m, .update .groestl h1, .finalize .groestl,
    .init .blake, .update .blake m, .update .blake h1, .finalize .blake]

/-- `s` at the end of a HASH of header `m` over engines `E` (R110). -/
def hashed (E : Engines) (m : Bytes) (s : State) : State :=
  { s with
    h1 := E.hefty1 m, h1V := true
    h2 := chainedDigest E m, h2V := true
    aux1 := auxDigest E.keccak512 m (E.hefty1 m).toList, aux1V := true
    aux2 := auxDigest E.groestl512 m (E.hefty1 m).toList, aux2V := true
    aux3 := auxDigest E.blake512 m (E.hefty1 m).toList, aux3V := true
    kc := fedContext E.keccak512 m (E.hefty1 m).toList, kcV := false
    gc := fedContext E.groestl512 m (E.hefty1 m).toList, gcV := false
    bc := fedContext E.blake512 m (E.hefty1 m).toList, bcV := false
    out := powHash E m, outV := true
    acc := (combineSerial (chainSources E m)).1
    bitCount := BitVec.ofNat 9 (combineSerial (chainSources E m)).2
    status := (s.status ||| 0x02) &&& ~~~0x01, seq := Useq.idle
    engineCalls := s.engineCalls ++ hashCalls m (E.hefty1 m).toList }

/-- From H_HEFTY a HASH ends after its fifteen micro-operations (R97, R110). -/
theorem run_hash_chain {s : State} {m : Bytes} (hrun : s.letsRun) (h1 : s.seq = Useq.hHefty)
    (hl : s.lenr.toNat ≤ Config.hdrSize) (hm : s.header = some m) :
    Host.Core.run Sys2Proof.core 15 s = .next (hashed Config.engines m s) := by
  refine run_micro .hHefty hrun (by rw [h1]; rfl) (execHHefty_next.2 ⟨hl, m, hm, rfl⟩) ?_
  refine run_micro .hSha hrun rfl (execHSha_next.2 ⟨hl, m, hm, rfl⟩) ?_
  refine run_micro .hKInit hrun rfl (execHKInit_next.2 rfl) ?_
  refine run_micro .hKUpdIn hrun rfl (execHKUpdIn_next.2 ⟨hl, m, hm, rfl⟩) ?_
  refine run_micro .hKUpdH1 hrun rfl (execHKUpdH1_next.2 rfl) ?_
  refine run_micro .hKFin hrun rfl (execHKFin_next.2 rfl) ?_
  refine run_micro .hGInit hrun rfl (execHGInit_next.2 rfl) ?_
  refine run_micro .hGUpdIn hrun rfl (execHGUpdIn_next.2 ⟨hl, m, hm, rfl⟩) ?_
  refine run_micro .hGUpdH1 hrun rfl (execHGUpdH1_next.2 rfl) ?_
  refine run_micro .hGFin hrun rfl (execHGFin_next.2 rfl) ?_
  refine run_micro .hBInit hrun rfl (execHBInit_next.2 rfl) ?_
  refine run_micro .hBUpdIn hrun rfl (execHBUpdIn_next.2 ⟨hl, m, hm, rfl⟩) ?_
  refine run_micro .hBUpdH1 hrun rfl (execHBUpdH1_next.2 rfl) ?_
  refine run_micro .hBFin hrun rfl (execHBFin_next.2 rfl) ?_
  refine run_micro .hCombine hrun rfl (execHCombine_next.2 rfl) ?_
  simp only [Host.Core.run, List.append_assoc, List.cons_append, List.nil_append]
  rfl

/-- What has been written from address `a` on reads back (spec/20_memory.md R61, R62). -/
theorem readBytes_writeBytes (m : Memory) (a : Nat) (bs : Bytes) :
    (m.writeBytes a bs).readBytes a bs.length = some bs :=
  (readBytes_eq_some _ _ _ _).2 ⟨rfl, fun _ hi => readByte_writeBytes_inside m a bs hi⟩

/-- One action of the host in a run. -/
theorem run_hostAct {s t : State} {o : Out} {k : Nat} (a : HostAct) {r : List HostAct} (hh : s.host = a :: r)
    (ht : s.turn = none) (hx : hostAct a { s with host := r } = .next t)
    (hk : Host.Core.run Sys2Proof.core k t = o) : Host.Core.run Sys2Proof.core (k + 1) s = o :=
  run_of_step ((step_of_no_turn hh ht).trans hx) hk

/-- At IDLE a `hold` lets the sequencer take the presented word (R94, R99; log 12). -/
theorem run_accepted {s t : State} {o : Out} {c : BitVec 9} {r : List HostAct} {k : Nat} (i : Instr)
    (hh : s.host = .hold :: r) (hc : s.cmd = some c) (hi : decodeCmd c = i) (h0 : s.seq = Useq.idle)
    (hx : exec i { s with cmd := none } = .next t) (hk : Host.Core.run Sys2Proof.core k t = o) :
    Host.Core.run Sys2Proof.core (k + 1) s = o := by
  subst hi
  have hturn : s.turn = some s := by simp [State.turn, hh, hc, h0]
  exact run_of_step ((step_of_command hturn h0 hc).trans hx) hk

/-- The word of HASH decodes to HASH. -/
theorem decodeCmd_hash (len : BitVec 7) : decodeCmd (cmdWord len Op.hash) = .hash len :=
  Except.ok.inj (decode_encode (.hash len))

/-- `s` when the host has written header `h` and its HASH has been accepted; `r` is what the host does next
(R94, R100). -/
def hashStarted (h : Bytes) (r : List HostAct) (s : State) : State :=
  { s with
    hdr := s.hdr.writeBytes 0 h, cmd := none, opr := Op.hash, lenr := BitVec.ofNat 7 h.length
    h1V := false, h2V := false, aux1V := false, aux2V := false, aux3V := false
    kcV := false, gcV := false, bcV := false, outV := false
    status := (s.status ||| 0x01) &&& ~~~0x02, seq := Useq.hHefty, host := r }

/-- BUSY is 1 when a command has started (R94). -/
theorem busy_hashStarted (h : Bytes) (r : List HostAct) (s : State) : (hashStarted h r s).busy = true := by
  rw [State.busy, hashStarted, ← withBusyDone_start, getLsbD_withBusyDone]
  rfl

/-- The length of the HASH that has started is legal, as is that of the header. -/
theorem lenr_hashStarted {h : Bytes} (hlen : h.length = 80 ∨ h.length = 84) (r : List HostAct) (s : State) :
    (hashStarted h r s).lenr = 80 ∨ (hashStarted h r s).lenr = 84 := by
  rcases hlen with hlen | hlen <;> simp [hashStarted, hlen]

/-- The header of the HASH that has started is the one the host wrote. -/
theorem header_hashStarted {h : Bytes} (hlen : h.length = 80 ∨ h.length = 84) (r : List HostAct) (s : State) :
    (hashStarted h r s).header = some h := by
  have hlenr : (BitVec.ofNat 7 h.length).toNat = h.length := by
    rw [BitVec.toNat_ofNat, Nat.mod_eq_of_lt (by omega)]
  rw [State.header, hashStarted, hlenr, readBytes_writeBytes]

/-- The lines of `hash(h)` before its `WAIT`: the header write, the command and its acceptance (R99, R100). -/
theorem run_hashScript_start {s : State} {h : Bytes} {r : List HostAct} (hlen : h.length = 80 ∨ h.length = 84)
    (h0 : s.seq = Useq.idle) (hb : s.busy = false) (hhost : s.host = hashScript h ++ r) :
    Host.Core.run Sys2Proof.core 4 s = .next (hashStarted h (.wait :: .read .out :: r) s) := by
  have hwf : (HostAct.wrHdr 0 h).wellFormed = true :=
    (wellFormed_wrHdr 0 h).2 ⟨List.ne_nil_of_length_pos (by omega), by omega⟩
  have hturn : s.turn = none := by rw [State.turn, hhost]; rfl
  refine run_hostAct (.wrHdr 0 h) hhost hturn ((if_pos hwf).trans (hostWrite_of_not_busy hb)) ?_
  refine run_hostAct (.present (cmdWord (BitVec.ofNat 7 h.length) Op.hash)) rfl rfl rfl ?_
  refine run_accepted (.hash (BitVec.ofNat 7 h.length)) rfl rfl (decodeCmd_hash _) h0
    (hashOfLegalLengthStarts _ _ h0 (lenr_hashStarted hlen r s)) ?_
  exact run_hostAct .hold rfl rfl rfl rfl

/-- OUT as the host reads it when it is valid (R41). -/
theorem readReg_out {s : State} (hb : s.busy = false) (hv : s.outV = true) :
    readReg s .out = .ok (wordValues s.out) := by
  rw [readReg, (readable_iff (f := .out)).2 ⟨hb, hv⟩, valueOf_true]

/-- The lines of `hash(h)` after the command: the finished `WAIT` and the read of OUT (R99, R100). -/
theorem run_hashScript_read {s : State} {r : List HostAct} (hb : s.busy = false) (hv : s.outV = true)
    (hhost : s.host = .wait :: .read .out :: r) :
    Host.Core.run Sys2Proof.core 2 s =
      .next { s with host := r, reads := s.reads ++ [⟨.out, wordValues s.out⟩] } := by
  have hturn : s.turn = none := by simp [State.turn, hhost, hb]
  refine run_hostAct .wait hhost hturn rfl ?_
  exact run_hostAct (.read .out) rfl rfl (hostRead_of_ok (readReg_out hb hv)) rfl

end Sys2Proof.Machine

open Sys2Proof Sys2Proof.Machine

/-- Settles O59: the command starts with the header the host wrote, runs its chain while the host waits, and OUT is
valid when the host reads it. -/
theorem hashScriptReturnsTheCombinedHash : Obligations.HashScriptReturnsTheCombinedHash := by
  intro s h r hlen h0 hb hhost
  have hstart := run_hashScript_start hlen h0 hb hhost
  set u := hashStarted h (.wait :: .read .out :: r) s
  have hlenr : u.lenr.toNat ≤ Config.hdrSize := lenr_le_hdrSize (lenr_hashStarted hlen _ s)
  have hchain : Host.Core.run Sys2Proof.core 15 u = .next (hashed Config.engines h u) :=
    run_hash_chain (.inr ⟨busy_hashStarted h _ s, _, rfl⟩) rfl hlenr (header_hashStarted hlen _ s)
  obtain ⟨hnotBusy, hdone, -⟩ := status_at_end (s := u) (t := hashed Config.engines h u) (withBusyDone_finish _).symm
  have hread := run_hashScript_read (s := hashed Config.engines h u) hnotBusy rfl rfl
  exact ⟨_, (run_add hstart 17).trans ((run_add hchain 2).trans hread), rfl, rfl, rfl, hdone, rfl⟩
end

section
/-! The micro-operations of the hash chain, each with its frame (spec/40_hashchain.md R111 to R124). -/

open Sys2Proof Sys2Proof.Machine

/-- Settles O11: with the header there H_HEFTY completes, and writes what `execHHefty_next` says. -/
theorem heftyWritesH1 : Obligations.HeftyWritesH1 :=
  ⟨rfl, fun _ m hl hm => ⟨_, execHHefty_next.2 ⟨lenr_le_hdrSize hl, m, hm, rfl⟩, rfl⟩⟩

/-- Settles O12: H1 is read as it stands, after the header. -/
theorem shaWritesH2 : Obligations.ShaWritesH2 := by
  refine ⟨rfl, fun s m hl hm h1V => ?_⟩
  obtain ⟨-, -, vH1, -⟩ := value_of_holds s
  refine ⟨_, execHSha_next.2 ⟨lenr_le_hdrSize hl, m, hm, rfl⟩, ?_⟩
  rw [vH1 h1V]
  rfl

/-- Settles O13: an `init` reads nothing. -/
theorem initWritesTheContext : Obligations.InitWritesTheContext :=
  ⟨⟨rfl, rfl, rfl⟩, fun _ =>
    ⟨⟨_, execHKInit_next.2 rfl, rfl⟩, ⟨_, execHGInit_next.2 rfl, rfl⟩, _, execHBInit_next.2 rfl, rfl⟩⟩

/-- Settles O14: the context is read as it stands, the header is there. -/
theorem updateTakesTheHeader : Obligations.UpdateTakesTheHeader := by
  refine ⟨⟨rfl, rfl, rfl⟩, fun s m hl hm => ?_⟩
  obtain ⟨-, -, -, -, -, -, -, -, vKc, vGc, vBc⟩ := value_of_holds s
  have hsize := lenr_le_hdrSize hl
  exact ⟨fun h => ⟨_, execHKUpdIn_next.2 ⟨hsize, m, hm, rfl⟩, by rw [vKc h]⟩,
    fun h => ⟨_, execHGUpdIn_next.2 ⟨hsize, m, hm, rfl⟩, by rw [vGc h]⟩,
    fun h => ⟨_, execHBUpdIn_next.2 ⟨hsize, m, hm, rfl⟩, by rw [vBc h]⟩⟩

/-- Settles O15: the context and H1 are read as they stand. -/
theorem updateTakesH1 : Obligations.UpdateTakesH1 := by
  refine ⟨⟨rfl, rfl, rfl⟩, fun s h1V => ?_⟩
  obtain ⟨-, -, vH1, -, -, -, -, -, vKc, vGc, vBc⟩ := value_of_holds s
  exact ⟨fun h => ⟨_, execHKUpdH1_next.2 rfl, by rw [vH1 h1V, vKc h]⟩,
    fun h => ⟨_, execHGUpdH1_next.2 rfl, by rw [vH1 h1V, vGc h]⟩,
    fun h => ⟨_, execHBUpdH1_next.2 rfl, by rw [vH1 h1V, vBc h]⟩⟩

/-- Settles O16: the context is read as it stands; AUX_BINDING and WORD_BYTE_ORDER have the values the spec takes. -/
theorem finalizeWritesTheDigest : Obligations.FinalizeWritesTheDigest := by
  refine ⟨⟨rfl, rfl, rfl⟩, fun s => ?_⟩
  obtain ⟨-, -, -, -, -, -, -, -, vKc, vGc, vBc⟩ := value_of_holds s
  refine ⟨fun h => ?_, fun h => ?_, fun h => ?_⟩
  · rw [← vKc h]
    exact ⟨_, execHKFin_next.2 rfl, rfl⟩
  · rw [← vGc h]
    exact ⟨_, execHGFin_next.2 rfl, rfl⟩
  · rw [← vBc h]
    exact ⟨_, execHBFin_next.2 rfl, rfl⟩
end

section
/-! A running command never stops (spec/40_hashchain.md R129, spec/60_exceptions.md R194). -/

namespace Sys2Proof

/-- The SEQ codes 1 to 18 name micro-operations (R97). -/
theorem decodeUseq_of_used {u : BitVec 5} (h0 : u ≠ Useq.idle) (h18 : u.toNat ≤ 18) :
    ∃ i, decodeUseq u = .ok i := by
  cases hd : decodeUseq u with
  | ok i => exact ⟨i, rfl⟩
  | error e =>
    obtain ⟨h, -⟩ | ⟨rfl, -⟩ | ⟨h19, -, -⟩ := decodeUseq_error hd
    · exact absurd h h0
    · exact absurd h18 (by decide)
    · omega

end Sys2Proof

namespace Sys2Proof.Machine

/-- The header readers belong to HASH: their SEQ codes are below 16 (R97). -/
theorem headerReader_seq {u : BitVec 5} {i : Instr} (hd : decodeUseq u = .ok i) (hi : i ∈ headerReaders) :
    u.toNat ≤ 15 := by
  have hcode : ∀ j ∈ headerReaders, ∀ v, encode j = .useq v → v.toNat ≤ 15 := by
    simp [headerReaders, encode]
  exact hcode i hi u (encode_of_decodeUseq hd)

/-- The control invariant does not depend on the host's list, so it holds where the sequencer moves. -/
theorem State.Control.of_turn {s t : State} (hc : s.Control) (ht : s.turn = some t) : t.Control := by
  rw [turn_eq ht]
  exact hc.with_inputs hc.hdrWf

/-- Under the control invariant the micro-operation in progress has its header operand, if HASH has its header. -/
theorem State.Control.headerHoldsFor {s : State} {i : Instr} (hc : s.Control) (hin : s.inputsHold)
    (hd : decodeUseq s.seq = .ok i) : headerHoldsFor i s := by
  rw [headerHoldsFor_iff]
  intro hi
  obtain ⟨h1, -⟩ := decodeUseq_range hd
  have h15 := headerReader_seq hd hi
  exact ⟨lenr_le_hdrSize (hc.latchHash h1 h15).2, hin h1 h15⟩

end Sys2Proof.Machine

open Sys2Proof Sys2Proof.Machine

/-- Settles O49: at IDLE and in HALT a step always completes; elsewhere SEQ names a micro-operation, and the header it
may read is there. -/
theorem runningCommandNeverStops : Obligations.RunningCommandNeverStops := by
  intro s t hcs ht hin
  have hc := hcs.of_turn ht
  by_cases h0 : t.seq = Useq.idle
  · cases hcmd : t.cmd with
    | none => exact ⟨t, step_of_idle ht h0 hcmd⟩
    | some c =>
      rw [step_of_command ht h0 hcmd]
      exact exec_completes (not_mem_headerReaders (isMicro_decodeCmd c)) _
  · rcases hc.seqUsed with h18 | hhalt
    · obtain ⟨i, hd⟩ := decodeUseq_of_used h0 h18
      rw [step_of_micro ht hd]
      exact (execCompletesExactlyWhenTheHeaderHolds i t).1.2 (hc.headerHoldsFor hin hd)
    · exact ⟨t, step_of_halt ht hhalt⟩
end

section
/-! A whole HASH from IDLE (spec/40_hashchain.md R110, R128, R130). -/

namespace Sys2Proof.Machine

/-- The bytes read depend on nothing but the bytes at those addresses (spec/20_memory.md R61, R63). -/
theorem readBytes_congr {m m' : Memory} {a n : Nat} {bs : Bytes}
    (h : ∀ i < n, m.readByte (a + i) = m'.readByte (a + i)) (hm : m.readBytes a n = some bs) :
    m'.readBytes a n = some bs := by
  rw [readBytes_eq_some] at hm ⊢
  exact ⟨hm.1, fun i hi => (h i hi).symm.trans (hm.2 i hi)⟩

/-- A run that answers a next state took a first step and answers from there. -/
theorem run_succ_next {M : Host.Core} {s t : M.State} {k : Nat} (h : M.run (k + 1) s = .next t) :
    ∃ u, M.step s = .next u ∧ M.run k u = .next t := by
  rw [Host.Core.run] at h
  split at h
  next u hu => exact ⟨u, hu, h⟩
  next => cases h
  next => cases h

/-- HASH of a legal length `len` is on the port at IDLE and the host has no action left. -/
structure State.presentsHash (s : State) (len : BitVec 7) : Prop where
  host : s.host = []
  seq : s.seq = Useq.idle
  cmd : s.cmd = some (cmdWord len Op.hash)
  legal : len = 80 ∨ len = 84

/-- `s` when the HASH of length `len` on its port has been accepted (R94). -/
def hashAccepted (len : BitVec 7) (s : State) : State :=
  { s with
    cmd := none, opr := Op.hash, lenr := len
    h1V := false, h2V := false, aux1V := false, aux2V := false, aux3V := false
    kcV := false, gcV := false, bcV := false, outV := false
    status := (s.status ||| 0x01) &&& ~~~0x02, seq := Useq.hHefty }

/-- The first step of a HASH is its acceptance (R94). -/
theorem step_hash {s : State} {len : BitVec 7} (hp : s.presentsHash len) : step s = .next (hashAccepted len s) := by
  rw [step_of_command (turn_of_no_host hp.host) hp.seq hp.cmd, decodeCmd_hash]
  exact hashOfLegalLengthStarts len _ hp.seq hp.legal

/-- A whole HASH: its acceptance and its fifteen micro-operations (R110). -/
theorem run_hash {s : State} {len : BitVec 7} {m : Bytes} (hp : s.presentsHash len)
    (hm : s.hdr.readBytes 0 len.toNat = some m) :
    Host.Core.run Sys2Proof.core 16 s = .next (hashed Config.engines m (hashAccepted len s)) :=
  run_of_step (step_hash hp)
    (run_hash_chain (s := hashAccepted len s) (.inl hp.host) rfl (lenr_le_hdrSize hp.legal) hm)

/-- A HASH that comes past its first micro-operation had its header written (R61). -/
theorem header_of_run_hash {s t : State} {len : BitVec 7} {k : Nat} (hp : s.presentsHash len)
    (hrun : Host.Core.run Sys2Proof.core (k + 2) s = .next t) : ∃ m, s.hdr.readBytes 0 len.toNat = some m := by
  rw [run_succ (M := Sys2Proof.core) (step_hash hp)] at hrun
  obtain ⟨u, hu, -⟩ := run_succ_next hrun
  have hexec : step (hashAccepted len s) = exec .hHefty (hashAccepted len s) :=
    step_of_micro (turn_of_no_host hp.host) rfl
  obtain ⟨-, m, hm, -⟩ := execHHefty_next.1 (hexec.symm.trans hu)
  exact ⟨m, hm⟩

end Sys2Proof.Machine

open Sys2Proof Sys2Proof.Machine

/-- Settles O51: the end state of the chain, field by field. -/
theorem hashCommandComputesTheHash : Obligations.HashCommandComputesTheHash := by
  intro s len m hhost h0 hcmd hlen hm
  set u := hashAccepted len s
  obtain ⟨hbusy, hdone, -⟩ := status_at_end (s := u) (t := hashed Config.engines m u) (withBusyDone_finish _).symm
  refine ⟨hashed Config.engines m u, run_hash ⟨hhost, h0, hcmd, hlen⟩ hm, ?_⟩
  exact ⟨rfl, rfl, rfl, rfl, rfl, rfl, rfl, hbusy, hdone, rfl, rfl, rfl, rfl, rfl, rfl, rfl, rfl, rfl, rfl, rfl, rfl,
    rfl, rfl, rfl, rfl, rfl, rfl⟩

/-- Settles O52: the record of calls at the end of the chain. -/
theorem hashMakesExactlyTheseEngineCalls : Obligations.HashMakesExactlyTheseEngineCalls := by
  intro s len m hhost h0 hcmd hlen hm
  have hlength : m.length = len.toNat := ((readBytes_eq_some _ _ _ _).1 hm).1
  exact ⟨_, run_hash ⟨hhost, h0, hcmd, hlen⟩ hm, hlength, Vector.length_toList, rfl⟩

/-- Settles O53: both runs end in the chain of one header, whose results are functions of that header. -/
theorem hashDependsOnTheHeaderAlone : Obligations.HashDependsOnTheHeaderAlone := by
  intro s s' t t' len hhost hhost' h0 h0' hcmd hcmd' hlen hbytes hrun hrun'
  have hp : s.presentsHash len := ⟨hhost, h0, hcmd, hlen⟩
  have hp' : s'.presentsHash len := ⟨hhost', h0', hcmd', hlen⟩
  obtain ⟨m, hm⟩ := header_of_run_hash hp hrun
  have hm' : s'.hdr.readBytes 0 len.toNat = some m :=
    readBytes_congr (fun i hi => by simpa using hbytes i hi) hm
  cases (run_hash hp hm).symm.trans hrun
  cases (run_hash hp' hm').symm.trans hrun'
  exact ⟨rfl, rfl, rfl, rfl, rfl, rfl⟩
end

section
/-! The combiner's three forms (spec/41_combiner.md R140 to R145, R147). -/

namespace Sys2Proof.Machine

/-- The closed form read by position, 0 = most significant (R141, R12). -/
theorem getLsbD_combine_position (S : Sources) {p : Nat} (hp : p < 256) :
    ((combine S)[7 - p / 32]!).getLsbD (31 - p % 32) = sourceBit S p := by
  have hpos : 32 * (7 - (7 - p / 32)) + (31 - (31 - p % 32)) = p := by omega
  rw [getElem!_pos (combine S) (7 - p / 32) (by omega), getLsbD_combine S _ (by omega) _ (by omega), hpos]

/-- A position by its coordinates: half `h` of the output, bit `31 - j`, source `k`, in the loop order of R142. -/
theorem sourceBit_coordinates (S : Sources) {h j k : Nat} (hj : j < 32) (hk : k < 4) :
    sourceBit S (128 * h + 4 * j + k) = (sourceWord S k (if h = 0 then 7 else 6)).getLsbD (31 - j) := by
  have hsource : (128 * h + 4 * j + k) % 4 = k := by omega
  have hquot : (128 * h + 4 * j + k) / 4 = 32 * h + j := by omega
  have hbit : (32 * h + j) % 32 = j := by omega
  have hhalf : 32 * h + j < 32 ↔ h = 0 := by omega
  rw [sourceBit, hsource, hquot, hbit, if_congr hhalf rfl rfl]

/-- The four sources in SRC_ORDER, listed (R8). -/
theorem getElem!_sources (S : Sources) (i : Fin 8) {k : Nat} (hk : k < 4) :
    #v[S.h2[i.val], S.aux1[i.val], S.aux2[i.val], S.aux3[i.val]][k]! = sourceWord S k i := by
  match k, hk with
  | 0, _ | 1, _ | 2, _ | 3, _ => rfl

/-- Two combinations agree exactly when the bits at all 256 positions do. -/
theorem combine_eq_iff_sourceBit {S T : Sources} :
    combine S = combine T ↔ ∀ p < 256, sourceBit S p = sourceBit T p := by
  constructor
  · intro h p hp
    rw [← getLsbD_combine_position S hp, ← getLsbD_combine_position T hp, h]
  · intro h
    ext1 w hw
    apply BitVec.eq_of_getLsbD_eq
    intro y hy
    rw [getLsbD_combine S w hw y hy, getLsbD_combine T w hw y hy]
    exact h _ (by omega)

/-- The words read can be read back, and no other word has an effect (R145, R147). -/
theorem combine_eq_iff_sourceWord {S T : Sources} :
    combine S = combine T ↔ ∀ k < 4, sourceWord S k 7 = sourceWord T k 7 ∧ sourceWord S k 6 = sourceWord T k 6 := by
  rw [combine_eq_iff_sourceBit]
  constructor
  · intro h k hk
    have half (b : Nat) (hb : b < 2) :
        sourceWord S k (if b = 0 then 7 else 6) = sourceWord T k (if b = 0 then 7 else 6) := by
      apply BitVec.eq_of_getLsbD_eq
      intro y hy
      have hp := h (128 * b + 4 * (31 - y) + k) (by omega)
      have hback : 31 - (31 - y) = y := by omega
      rwa [sourceBit_coordinates S (by omega) hk, sourceBit_coordinates T (by omega) hk, hback] at hp
    exact ⟨half 0 (by decide), half 1 (by decide)⟩
  · intro h p _
    obtain ⟨h7, h6⟩ := h (p % 4) (by omega)
    unfold sourceBit
    split
    · rw [h7]
    · rw [h6]

/-- The mux form has the source bit of each position at that position (R144). -/
theorem combineMux_eq_combine (S : Sources) : combineMux S = combine S := by
  ext1 w hw
  apply BitVec.eq_of_getLsbD_eq
  intro y hy
  have hpos : 32 * (7 - w) + (31 - y) = 128 * (1 - w / 4) + 4 * (31 - (8 * (w % 4) + y / 4)) + (3 - y % 4) := by omega
  have hhalf : 1 - w / 4 = 0 ↔ 4 ≤ w := by omega
  have hbit : 31 - (31 - (8 * (w % 4) + y / 4)) = 8 * (w % 4) + y / 4 := by omega
  rw [getLsbD_combineMux S w hw y hy, getLsbD_combine S w hw y hy, hpos,
    sourceBit_coordinates S (by omega) (by omega), if_congr hhalf rfl rfl, hbit]

/-! The bit-serial form: after `n` appends each word holds its leading bits, and the later ones are still to be shifted
in (R142, R143). -/

/-- ACC after `n` appends: each word of the closed form without the bits still to come. -/
def combineLeading (S : Sources) (n : Nat) : Vector Word 8 :=
  Vector.ofFn fun w => (combine S)[w] >>> (32 * (8 - w.val) - n)

theorem getElem_combineLeading (S : Sources) (n : Nat) {w : Nat} (hw : w < 8) :
    (combineLeading S n)[w] = (combine S)[w] >>> (32 * (8 - w) - n) := by
  simp [combineLeading]

theorem combineLeading_zero (S : Sources) : combineLeading S 0 = Vector.replicate 8 0 := by
  ext1 w hw
  rw [getElem_combineLeading S 0 hw, BitVec.ushiftRight_eq_zero (by omega), Vector.getElem_replicate]
  rfl

theorem combineLeading_all (S : Sources) : combineLeading S 256 = combine S := by
  ext1 w hw
  have hnone : 32 * (8 - w) - 256 = 0 := by omega
  rw [getElem_combineLeading S 256 hw, hnone, BitVec.ushiftRight_zero]

/-- Shifting a word's leading bits left and ORing in the next bit gives one leading bit more. -/
theorem shl32_or_next_bit (x : Word) (d : Nat) :
    shl32 (x >>> (d + 1)) 1 ||| (if x.getLsbD d then 1 else 0) = x >>> d := by
  rw [shl32_eq]
  apply BitVec.eq_of_getLsbD_eq
  intro y hy
  cases y with
  | zero => cases h : x.getLsbD d <;> simp [h]
  | succ y =>
    have hlater : d + 1 + y = d + (y + 1) := by omega
    cases h : x.getLsbD d <;> simp [hy, hlater]

/-- Where and what an append writes (R142). -/
theorem pushBit_eq (x : Vector Word 8) (n : Nat) (bit : Bool) (hw : (255 - n) / 32 < 8) :
    pushBit (x, n) bit =
      (x.set ((255 - n) / 32) (shl32 x[(255 - n) / 32] 1 ||| (if bit then 1 else 0)), n + 1) := by
  have hset (y : Word) : x.set! ((255 - n) / 32) y = x.set ((255 - n) / 32) y := by
    ext1 v hv
    rw [Vector.set!_eq_setIfInBounds, Vector.getElem_setIfInBounds hv, Vector.getElem_set]
  simp only [pushBit, hset, getElem!_pos x ((255 - n) / 32) hw]

/-- One append takes the leading `n` bits to the leading `n + 1`: it changes the word of position `n` and no other
(R143). -/
theorem pushBit_combineLeading (S : Sources) {n : Nat} (hn : n < 256) :
    pushBit (combineLeading S n, n) (sourceBit S n) = (combineLeading S (n + 1), n + 1) := by
  have hw : (255 - n) / 32 < 8 := by omega
  rw [pushBit_eq _ n _ hw, Prod.mk.injEq, and_iff_left rfl]
  ext1 v hv
  rw [Vector.getElem_set, getElem_combineLeading S n hw, getElem_combineLeading S (n + 1) hv]
  split
  · next heq =>
    subst heq
    have hbit : sourceBit S n = (combine S)[(255 - n) / 32].getLsbD (31 - n % 32) := by
      rw [getLsbD_combine S _ hw _ (by omega)]
      congr 1
      omega
    have hd : 32 * (8 - (255 - n) / 32) - n = 31 - n % 32 + 1 := by omega
    have hd' : 32 * (8 - (255 - n) / 32) - (n + 1) = 31 - n % 32 := by omega
    rw [hbit, hd, hd', shl32_or_next_bit]
  · rw [getElem_combineLeading S n hv]
    by_cases hdone : 32 * (8 - v) ≤ n
    · congr 1
      omega
    · rw [BitVec.ushiftRight_eq_zero (by omega), BitVec.ushiftRight_eq_zero (by omega)]

/-- A loop over `0 .. n - 1` whose pass `j` takes `f j` to `f (j + 1)` takes `f 0` to `f n`. -/
theorem foldl_range_of_step {α : Type} (g : α → Nat → α) (f : Nat → α) (n : Nat)
    (h : ∀ j < n, g (f j) j = f (j + 1)) : (List.range n).foldl g (f 0) = f n := by
  induction n with
  | zero => rfl
  | succ n ih =>
    rw [List.range_succ, List.foldl_append, ih fun j hj => h j (by omega)]
    exact h n (by omega)

/-- The 128 appends of one word index (R142). -/
theorem pushWord_combineLeading (S : Sources) {h : Nat} (hh : h < 2) :
    pushWord S (combineLeading S (128 * h), 128 * h) (if h = 0 then 7 else 6) =
      (combineLeading S (128 * (h + 1)), 128 * (h + 1)) := by
  refine foldl_range_of_step _ (fun j => (combineLeading S (128 * h + 4 * j), 128 * h + 4 * j)) 32 fun j hj => ?_
  have push (k : Nat) (hk : k < 4) :
      pushBit (combineLeading S (128 * h + 4 * j + k), 128 * h + 4 * j + k)
        ((sourceWord S k (if h = 0 then 7 else 6)).getLsbD (31 - j)) =
      (combineLeading S (128 * h + 4 * j + (k + 1)), 128 * h + 4 * j + (k + 1)) := by
    rw [← sourceBit_coordinates S hj hk]
    exact pushBit_combineLeading S (by omega)
  exact foldl_range_of_step _ (fun k => (combineLeading S (128 * h + 4 * j + k), 128 * h + 4 * j + k)) 4 push

/-- The bit-serial form has appended every position of the closed form (R143). -/
theorem combineSerial_eq_combine (S : Sources) : combineSerial S = (combine S, 256) := by
  calc combineSerial S
      = pushWord S (pushWord S (combineLeading S 0, 0) 7) 6 := by
        rw [combineLeading_zero, combineSerial, List.foldl_cons, List.foldl_cons, List.foldl_nil]
    _ = pushWord S (combineLeading S 128, 128) 6 :=
      congrArg (pushWord S · 6) (by simpa using pushWord_combineLeading S (h := 0) (by decide))
    _ = (combineLeading S 256, 256) := by simpa using pushWord_combineLeading S (h := 1) (by decide)
    _ = (combine S, 256) := by rw [combineLeading_all]

end Sys2Proof.Machine

open Sys2Proof Sys2Proof.Machine

/-- Settles O20: the closed form read by position, with its source bit written out. -/
theorem combineBitProvenance : Obligations.CombineBitProvenance := by
  intro h2 a1 a2 a3 p hp
  set S : Sources := ⟨h2, a1, a2, a3⟩
  have hsource (i : Fin 8) := getElem!_sources S i (Nat.mod_lt p (by decide : 0 < 4))
  rw [getLsbD_combine_position S hp, sourceBit]
  split
  · rw [← hsource 7]
    rfl
  · rw [← hsource 6]
    rfl

/-- Settles O21: `combineSerial_eq_combine`, and H_COMBINE leaves ACC and `b` as that form does. -/
theorem bitSerialCombinerEqualsClosedForm : Obligations.BitSerialCombinerEqualsClosedForm := by
  refine ⟨combineSerial_eq_combine, fun s t h => ?_⟩
  obtain rfl := execHCombine_next.1 h
  simp [combineSerial_eq_combine]

/-- Settles O22: `combineMux_eq_combine`. -/
theorem muxCombinerEqualsClosedForm : Obligations.MuxCombinerEqualsClosedForm := combineMux_eq_combine

/-- Settles O23: `combine_eq_iff_sourceWord`, with the four sources written out. -/
theorem combineDependsExactlyOnWords7And6 : Obligations.CombineDependsExactlyOnWords7And6 := by
  intro S T
  rw [combine_eq_iff_sourceWord]
  constructor
  · intro h
    obtain ⟨h70, h60⟩ := h 0 (by decide)
    obtain ⟨h71, h61⟩ := h 1 (by decide)
    obtain ⟨h72, h62⟩ := h 2 (by decide)
    obtain ⟨h73, h63⟩ := h 3 (by decide)
    exact ⟨⟨h70, h71, h72, h73⟩, h60, h61, h62, h63⟩
  · rintro ⟨⟨h70, h71, h72, h73⟩, h60, h61, h62, h63⟩ k hk
    match k, hk with
    | 0, _ => exact ⟨h70, h60⟩
    | 1, _ => exact ⟨h71, h61⟩
    | 2, _ => exact ⟨h72, h62⟩
    | 3, _ => exact ⟨h73, h63⟩

/-- Settles O19: the four digests are read as they stand. -/
theorem combineWritesOutAndEndsHash : Obligations.CombineWritesOutAndEndsHash := by
  refine ⟨rfl, fun s h2V aux1V aux2V aux3V => ⟨_, execHCombine_next.2 rfl, ?_⟩⟩
  obtain ⟨-, -, -, vH2, vAux1, vAux2, vAux3, -⟩ := value_of_holds s
  rw [State.sources, vH2 h2V, vAux1 aux1V, vAux2 aux2V, vAux3 aux3V]
end

section
/-! LOG2ROUND is the nearest integer to the logarithm, and the bit budget that comes of it (spec/42_maskderiver.md R162
to R164, R168, R171). -/

namespace Sys2Proof.Machine

/-- The two fields of DIFF below the sign, read off the number (R171). -/
theorem expOf_eq_div (d : BitVec 64) : expOf d = d.toNat / 2 ^ 52 % 2 ^ 11 := by
  rw [expOf_eq, BitVec.extractLsb'_toNat, Nat.shiftRight_eq_div_pow]

theorem fracOf_eq_mod (d : BitVec 64) : fracOf d = d.toNat % 2 ^ 52 := by
  rw [fracOf_eq, BitVec.extractLsb'_toNat, Nat.shiftRight_zero]

/-- A pattern with the sign 0 as a number: the fraction stands below the exponent (R171). -/
theorem toNat_of_sign_zero {d : BitVec 64} (h : d.getLsbD 63 = false) :
    d.toNat = 2 ^ 52 * expOf d + fracOf d := by
  have hlt : 2 * d.toNat < 2 ^ 64 := by
    rw [← BitVec.msb_eq_false_iff_two_mul_lt, BitVec.msb_eq_getLsbD_last]
    exact h
  rw [expOf_eq_div, fracOf_eq_mod]
  omega

theorem fracOf_lt (d : BitVec 64) : fracOf d < 2 ^ 52 := (d.extractLsb' 0 52).isLt

/-- A positive number is shifted to 53 bits by what its bit length lacks (R164). -/
theorem normalised_range {f : Nat} (h0 : f ≠ 0) (hf : f < 2 ^ 52) :
    bitLength f ≤ 52 ∧ 2 ^ 52 ≤ f * 2 ^ (53 - bitLength f) ∧ f * 2 ^ (53 - bitLength f) < 2 ^ 53 := by
  have hlen : bitLength f ≤ 52 := (Nat.log2_lt h0).2 hf
  have hlow : 2 ^ (bitLength f - 1) ≤ f := Nat.log2_self_le h0
  have hhigh : f < 2 ^ bitLength f := Nat.lt_log2_self
  have hpos : 1 ≤ bitLength f := Nat.le_add_left 1 _
  refine ⟨hlen, ?_, ?_⟩
  · calc 2 ^ 52 = 2 ^ (bitLength f - 1) * 2 ^ (53 - bitLength f) := by rw [← pow_add]; congr 1; omega
      _ ≤ f * 2 ^ (53 - bitLength f) := Nat.mul_le_mul_right _ hlow
  · calc f * 2 ^ (53 - bitLength f) < 2 ^ bitLength f * 2 ^ (53 - bitLength f) :=
          Nat.mul_lt_mul_of_pos_right hhigh (Nat.two_pow_pos _)
      _ = 2 ^ 53 := by rw [← pow_add]; congr 1; omega

/-- The normal form of a positive finite pattern: `M` in its range, and the value of the pattern (R164, R171). -/
theorem normaliseIn_spec {d : BitVec 64} (h : positiveFinite d = true) :
    2 ^ 52 ≤ (normaliseIn Config.diffFormat d).1 ∧ (normaliseIn Config.diffFormat d).1 < 2 ^ 53 ∧
      magnitude d =
        ((normaliseIn Config.diffFormat d).1 : ℚ) * 2 ^ ((normaliseIn Config.diffFormat d).2 - 52) := by
  obtain ⟨-, -, hnonzero⟩ := (positiveFinite_iff d).1 h
  have hfrac := fracOf_lt d
  by_cases hn : 1 ≤ expOf d
  · have hexp : (expOf d : ℤ) - 1023 - 52 = expOf d - 1075 := by ring
    rw [normaliseIn_normal hn, magnitude, if_pos hn, hexp, Nat.cast_add, Nat.cast_pow]
    exact ⟨by omega, by omega, rfl⟩
  · obtain ⟨hlen, hlow, hhigh⟩ := normalised_range (f := fracOf d) (by omega) hfrac
    rw [normaliseIn_subnormal hn, magnitude, if_neg hn]
    refine ⟨hlow, hhigh, ?_⟩
    have hexp : (-1074 : ℤ) = (53 - bitLength (fracOf d) : Nat) + (bitLength (fracOf d) - 1075 - 52) := by omega
    rw [hexp, zpow_add₀ (by norm_num), zpow_natCast, Nat.cast_mul, Nat.cast_pow, Nat.cast_ofNat, mul_assoc]

/-- The square of a value in normal form (R164). -/
theorem magnitude_sq {d : BitVec 64} (h : positiveFinite d = true) :
    magnitude d ^ 2 =
      (((normaliseIn Config.diffFormat d).1 ^ 2 : Nat) : ℚ) *
        2 ^ (2 * (normaliseIn Config.diffFormat d).2 - 104) := by
  obtain ⟨-, -, hvalue⟩ := normaliseIn_spec h
  rw [hvalue, mul_pow, ← zpow_natCast (2 ^ _ : ℚ) 2, ← zpow_mul, Nat.cast_pow]
  congr 2
  push_cast
  ring

/-! Scaling by a power of two moves a bound that is a power of two. -/

theorem two_pow_lt_scaled_iff (n k : Nat) (e : ℤ) :
    (2 : ℚ) ^ (k + e) < (n : ℚ) * 2 ^ e ↔ 2 ^ k < n := by
  rw [zpow_add₀ (by norm_num), mul_lt_mul_iff_left₀ (by positivity), zpow_natCast]
  exact_mod_cast Iff.rfl

theorem scaled_lt_two_pow_iff (n k : Nat) (e : ℤ) :
    (n : ℚ) * 2 ^ e < (2 : ℚ) ^ (k + e) ↔ n < 2 ^ k := by
  rw [zpow_add₀ (by norm_num), mul_lt_mul_iff_left₀ (by positivity), zpow_natCast]
  exact_mod_cast Iff.rfl

/-- The value lies within half a binary order of `2 ^ LOG2ROUND` (R164). -/
theorem log2Round_bounds {d : BitVec 64} (h : positiveFinite d = true) :
    (2 : ℚ) ^ (2 * Config.log2Round d - 1) < magnitude d ^ 2 ∧
      magnitude d ^ 2 < (2 : ℚ) ^ (2 * Config.log2Round d + 1) := by
  obtain ⟨hlow, hhigh, -⟩ := normaliseIn_spec h
  rw [magnitude_sq h, log2Round_eq]
  set M := (normaliseIn Config.diffFormat d).1
  set E := (normaliseIn Config.diffFormat d).2
  have hsqlow := Nat.pow_le_pow_left hlow 2
  have hsqhigh := Nat.pow_lt_pow_left hhigh (by decide : 2 ≠ 0)
  split
  next hdown =>
    have hsq := Nat.pow_le_pow_left hdown 2
    have hlo : 2 * E - 1 = (103 : Nat) + (2 * E - 104) := by push_cast; ring
    have hhi : 2 * E + 1 = (105 : Nat) + (2 * E - 104) := by push_cast; ring
    rw [hlo, hhi, two_pow_lt_scaled_iff, scaled_lt_two_pow_iff]
    omega
  next hup =>
    have hup : 6369051672525773 ≤ M := Nat.not_le.1 hup
    have hsq := Nat.pow_le_pow_left hup 2
    have hlo : 2 * (E + 1) - 1 = (105 : Nat) + (2 * E - 104) := by push_cast; ring
    have hhi : 2 * (E + 1) + 1 = (107 : Nat) + (2 * E - 104) := by push_cast; ring
    rw [hlo, hhi, two_pow_lt_scaled_iff, scaled_lt_two_pow_iff]
    omega

/-- A lower bound by the half-order below `a` and an upper bound by the half-order above `b` put `a` at most at `b`
(R164). -/
theorem le_of_two_pow_bounds {x y : ℚ} {a b : ℤ} (hx : (2 : ℚ) ^ (2 * a - 1) < x) (hxy : x ≤ y)
    (hy : y < (2 : ℚ) ^ (2 * b + 1)) : a ≤ b := by
  have hlt : (2 : ℚ) ^ (2 * a - 1) < (2 : ℚ) ^ (2 * b + 1) := hx.trans (hxy.trans_lt hy)
  rw [zpow_lt_zpow_iff_right₀ (by norm_num)] at hlt
  omega

/-- LOG2ROUND preserves order (R168). -/
theorem log2Round_le_of_magnitude_le {d e : BitVec 64} (hd : positiveFinite d = true) (he : positiveFinite e = true)
    (hle : magnitude d ≤ magnitude e) : Config.log2Round d ≤ Config.log2Round e := by
  have hnonneg : 0 ≤ magnitude d := by
    obtain ⟨-, -, hvalue⟩ := normaliseIn_spec hd
    rw [hvalue]
    positivity
  exact le_of_two_pow_bounds (log2Round_bounds hd).1 (pow_le_pow_left₀ hnonneg hle 2) (log2Round_bounds he).2

/-- The bit budget of a positive finite pattern (R162). -/
theorem deriveTbits_of_positiveFinite {d : BitVec 64} (h : positiveFinite d = true) :
    (deriveTbits d : ℤ) = max (31 + Config.log2Round d) 16 := by
  rw [deriveTbits_eq, if_pos h, Int.toNat_of_nonneg (by omega)]

/-- The budget is at the floor exactly up to one pattern, the last below `2 ^ (-14.5)` (R162). -/
theorem log2Round_le_floor_iff {d : BitVec 64} (h : positiveFinite d = true) :
    Config.log2Round d ≤ -15 ↔ d.toNat ≤ 0x3F06A09E667F3BCC := by
  obtain ⟨hsign, -, hnonzero⟩ := (positiveFinite_iff d).1 h
  have hfrac := fracOf_lt d
  rw [log2Round_eq, toNat_of_sign_zero hsign]
  by_cases hn : 1 ≤ expOf d
  · rw [normaliseIn_normal hn]
    dsimp only
    split <;> omega
  · obtain ⟨hlen, -, -⟩ := normalised_range (f := fracOf d) (by omega) hfrac
    rw [normaliseIn_subnormal hn]
    dsimp only
    split <;> omega

/-- The patterns that are not positive finite, by their bits (R163, R171). -/
theorem positiveFinite_eq_false {d : BitVec 64}
    (h : d.extractLsb' 52 11 = 2047 ∨ d.extractLsb' 0 63 = 0 ∨ d.getLsbD 63 = true) : positiveFinite d = false := by
  rw [Bool.eq_false_iff, ne_eq, positiveFinite_iff]
  rintro ⟨hsign, hexp, hnonzero⟩
  rcases h with h | h | h
  · exact hexp (congrArg BitVec.toNat h)
  · have hzero : d.toNat % 2 ^ 63 = 0 := by
      simpa [BitVec.extractLsb'_toNat] using congrArg BitVec.toNat h
    rw [expOf_eq_div, fracOf_eq_mod] at hnonzero
    omega
  · rw [h] at hsign
    contradiction

end Sys2Proof.Machine

open Sys2Proof Sys2Proof.Machine

/-- Settles O27: LOG2ROUND meets the bounds, and no other integer does. -/
theorem log2RoundIsTheNearestInteger : Obligations.Log2RoundIsTheNearestInteger := by
  intro d r h
  obtain ⟨hlow, hhigh⟩ := log2Round_bounds h
  constructor
  · rintro ⟨hrlow, hrhigh⟩
    exact le_antisymm (le_of_two_pow_bounds hrlow le_rfl hhigh) (le_of_two_pow_bounds hlow le_rfl hrhigh)
  · rintro rfl
    exact ⟨hlow, hhigh⟩

/-- Settles O28: the clamped sum, at the floor exactly where LOG2ROUND is at most -15. -/
theorem bitBudgetOfPositiveDifficulty : Obligations.BitBudgetOfPositiveDifficulty := by
  intro d h
  refine ⟨deriveTbits_of_positiveFinite h, ?_⟩
  rw [← log2Round_le_floor_iff h]
  omega

/-- Settles O31: LOG2ROUND, the clamp, the division and the minimum preserve order. -/
theorem bitBudgetIsMonotone : Obligations.BitBudgetIsMonotone := by
  intro d e hd he hlt
  have hbudget : deriveTbits d ≤ deriveTbits e := by
    have hlog := log2Round_le_of_magnitude_le hd he hlt.le
    have hbd := deriveTbits_of_positiveFinite hd
    have hbe := deriveTbits_of_positiveFinite he
    omega
  refine ⟨hbudget, fun o => ?_⟩
  exact min_le_min_right _ (Nat.div_le_div_right (Nat.add_le_add_right hbudget o))

/-- Settles O29: such a pattern is not positive finite. -/
theorem otherDifficultiesGiveTheFloor : Obligations.OtherDifficultiesGiveTheFloor := by
  intro d h
  rw [deriveTbits_eq, positiveFinite_eq_false h]
  rfl
end

section
/-! The four masks (spec/42_maskderiver.md R165 to R167) and what they test of the combination (R170). -/

namespace Sys2Proof.Machine

/-- The offset of slot `k` (R8, R167). -/
theorem getElem_offsets {k : Nat} (hk : k < 4) : Config.offsets[k] = 3 - k := by
  match k, hk with
  | 0, _ | 1, _ | 2, _ | 3, _ => rfl

/-- The shift count of a slot, with SHIFT_MAX as a number (R166). -/
theorem maskWidth_eq (t o : Nat) : maskWidth t o = min ((t + o) / 4) 31 := rfl

/-- From `t = 124` on every count is at the clamp, so that clamping `t` gives the same counts (R166). -/
theorem maskWidth_clamp (t o : Nat) : maskWidth (min t 124) o = maskWidth t o := by
  simp only [maskWidth_eq]
  omega

/-- A raw mask is one less than a power of two (R166). -/
theorem toNat_rawMask (t : Nat) {k : Nat} (hk : k < 4) :
    (rawMask t ⟨k, hk⟩).toNat = 2 ^ maskWidth t (3 - k) - 1 := by
  have hpow : 2 ^ maskWidth t (3 - k) ≤ 2 ^ 31 := Nat.pow_le_pow_right (by decide) (Nat.min_le_right _ _)
  have hpos : 0 < 2 ^ maskWidth t (3 - k) := Nat.two_pow_pos _
  have hone : (1 : Word).toNat = 1 := rfl
  simp only [rawMask, maskShift, shl32, getElem_offsets hk, BitVec.toNat_sub, BitVec.toNat_ofNat, hone]
  omega

/-- A mask of the command, read by its slot. -/
theorem getElem!_deriveMasks (t : Nat) {k : Nat} (hk : k < 4) :
    (deriveMasks t)[k]! = bitrev32 (rawMask t ⟨k, hk⟩) := by
  rw [getElem!_pos (deriveMasks t) k hk, getElem_deriveMasks]

/-- A mask has its leading bits set, as many as the shift count (R166). -/
theorem getLsbD_mask (t : Nat) {k : Nat} (hk : k < 4) {y : Nat} (hy : y < 32) :
    ((deriveMasks t)[k]!).getLsbD y = decide (31 - y < maskWidth t (3 - k)) := by
  rw [getElem!_deriveMasks t hk, getLsbD_bitrev32, BitVec.getLsbD, toNat_rawMask, Nat.testBit_two_pow_sub_one]
  simp [hy]

/-- The number whose `n` leading bits of 32 are set (R166). -/
theorem testBit_leading (n y : Nat) (hn : n ≤ 32) :
    (2 ^ 32 - 2 ^ (32 - n)).testBit y = decide (y < 32 ∧ 31 - y < n) := by
  have hshift : 2 ^ 32 - 2 ^ (32 - n) = (2 ^ n - 1) <<< (32 - n) := by
    rw [Nat.shiftLeft_eq, Nat.sub_mul, ← pow_add, Nat.add_sub_cancel' hn, Nat.one_mul]
  rw [hshift, Nat.testBit_shiftLeft, Nat.testBit_two_pow_sub_one, ← Bool.decide_and, decide_eq_decide]
  omega

/-- A mask as a number (R166). -/
theorem toNat_mask (t : Nat) {k : Nat} (hk : k < 4) :
    ((deriveMasks t)[k]!).toNat = 2 ^ 32 - 2 ^ (32 - maskWidth t (3 - k)) := by
  have hwidth : maskWidth t (3 - k) ≤ 31 := Nat.min_le_right _ _
  apply Nat.eq_of_testBit_eq
  intro y
  rw [BitVec.testBit_toNat, testBit_leading _ _ (by omega)]
  by_cases hy : y < 32
  · rw [getLsbD_mask t hk hy, decide_eq_decide, and_iff_right hy]
  · rw [BitVec.getLsbD_of_ge _ _ (Nat.not_lt.1 hy), eq_comm, decide_eq_false_iff_not]
    exact fun h => hy h.1

/-- A word is clear under a mask when its leading bits are 0, as many as the shift count. -/
theorem and_mask_eq_zero_iff (w : Word) (t : Nat) {k : Nat} (hk : k < 4) :
    w &&& (deriveMasks t)[k]! = 0 ↔ ∀ j < maskWidth t (3 - k), w.getLsbD (31 - j) = false := by
  have hwidth : maskWidth t (3 - k) ≤ 31 := Nat.min_le_right _ _
  rw [BitVec.eq_of_getLsbD_eq_iff]
  constructor
  · intro h j hj
    have hbit := h (31 - j) (by omega)
    have hback : 31 - (31 - j) = j := by omega
    simpa [BitVec.getLsbD_and, getLsbD_mask t hk (y := 31 - j) (by omega), hback, hj] using hbit
  · intro h y hy
    rw [BitVec.getLsbD_and, getLsbD_mask t hk hy]
    by_cases hj : 31 - y < maskWidth t (3 - k)
    · have hback : 31 - (31 - y) = y := by omega
      have hbit := h (31 - y) hj
      rw [hback] at hbit
      simp [hbit]
    · simp [hj]

/-- Slot `k` counts the positions of source `k` among the first `t` (R170). -/
theorem lt_maskWidth_iff {t : Nat} (ht : t ≤ 124) {j k : Nat} (hk : k < 4) :
    j < maskWidth t (3 - k) ↔ 4 * j + k < t := by
  rw [maskWidth_eq]
  omega

/-- The leading positions of the combination, by source and by bit of its word 7 (R141, R170). -/
theorem leading_positions_iff (S : Sources) {t : Nat} (ht : t ≤ 128) :
    (∀ p < t, ((combine S)[7 - p / 32]!).getLsbD (31 - p % 32) = false) ↔
      ∀ k < 4, ∀ j, 4 * j + k < t → (sourceWord S k 7).getLsbD (31 - j) = false := by
  have hsource {k j : Nat} (hk : k < 4) (hp : 4 * j + k < t) :
      ((combine S)[7 - (4 * j + k) / 32]!).getLsbD (31 - (4 * j + k) % 32) =
        (sourceWord S k 7).getLsbD (31 - j) := by
    rw [getLsbD_combine_position S (by omega)]
    simpa using sourceBit_coordinates S (h := 0) (j := j) (by omega) hk
  constructor
  · intro h k hk j hp
    rw [← hsource hk hp]
    exact h _ hp
  · intro h p hp
    have hcoord : 4 * (p / 4) + p % 4 = p := Nat.div_add_mod p 4
    have hk : p % 4 < 4 := Nat.mod_lt _ (by decide)
    have hbit := h (p % 4) hk (p / 4) (by omega)
    rwa [← hsource hk (by omega), hcoord] at hbit

end Sys2Proof.Machine

open Sys2Proof Sys2Proof.Machine

/-- Settles O34: `toNat_mask`, and the clamp is reached at 124. -/
theorem maskHasItsHighBitsSet : Obligations.MaskHasItsHighBitsSet := by
  refine fun t => ⟨fun k hk => toNat_mask t hk, ?_⟩
  simp only [deriveMasks, rawMask, maskShift, maskWidth_clamp]

/-- Settles O35: the numerator `t + 3 - k` reaches a multiple of 4 exactly when `t` is `k` modulo 4. -/
theorem oneSlotGrowsAtATime : Obligations.OneSlotGrowsAtATime := by
  intro t k _ hlt hk
  rw [getElem!_pos Config.offsets k hk, getElem_offsets hk, maskWidth_eq, maskWidth_eq]
  split <;> omega

/-- Settles O36: mask `k` tests the leading bits of word 7 of source `k`, and the combination puts those at the leading
positions. -/
theorem masksTestTheLeadingBits : Obligations.MasksTestTheLeadingBits := by
  intro S t _ ht
  rw [leading_positions_iff S (by omega)]
  refine forall₂_congr fun k hk => ?_
  simp only [and_mask_eq_zero_iff _ t hk, lt_maskWidth_iff ht hk]
end

section
/-! The mask deriver's micro-operations and a whole DERIVE_MASKS (spec/42_maskderiver.md R160, R161, R165). -/

namespace Sys2Proof.Machine

/-- The word of DERIVE_MASKS decodes to DERIVE_MASKS. -/
theorem decodeCmd_deriveMasks (len : BitVec 7) : decodeCmd (cmdWord len Op.deriveMasks) = .deriveMasks len :=
  Except.ok.inj (decode_encode (.deriveMasks len))

/-- STATUS after a whole command: what the start did to BUSY and DONE is undone (R94, R97). -/
theorem status_start_finish (st : BitVec 8) :
    (((st ||| 0x01) &&& ~~~0x02) ||| 0x02) &&& ~~~0x01 = (st ||| 0x02) &&& ~~~0x01 := by
  revert st; decide

/-- DIFF as M_TBITS reads it, written or not (R40; log 1). -/
theorem diffValue_eq {s : State} {d : BitVec 64}
    (h : (s.diffSet = true ∧ d = s.diff) ∨ (s.diffSet = false ∧ d = s.noValue.diff s.diff)) : s.diffValue = d := by
  obtain ⟨vDiff, -⟩ := value_of_holds s
  obtain ⟨nDiff, -⟩ := value_of_not_holds s
  rcases h with ⟨hset, rfl⟩ | ⟨hset, rfl⟩
  · exact vDiff hset
  · exact nDiff hset

/-- `s` when the DERIVE_MASKS of length field `len` on its port has been accepted (R94). -/
def deriveMasksAccepted (len : BitVec 7) (s : State) : State :=
  { s with
    cmd := none, opr := Op.deriveMasks, lenr := len, tbitsV := false, maskV := false
    status := (s.status ||| 0x01) &&& ~~~0x02, seq := Useq.mTbits }

/-- `s` at the end of a DERIVE_MASKS of difficulty `d` (R160). -/
def masksDerived (d : BitVec 64) (s : State) : State :=
  { s with
    tbits := BitVec.ofNat 11 (deriveTbits d), tbitsV := true
    mask := deriveMasks (deriveTbits d), maskV := true
    status := (s.status ||| 0x02) &&& ~~~0x01, seq := Useq.idle }

/-- The first step of a DERIVE_MASKS is its acceptance (R94). -/
theorem step_deriveMasks {s : State} {len : BitVec 7} (hhost : s.host = []) (h0 : s.seq = Useq.idle)
    (hcmd : s.cmd = some (cmdWord len Op.deriveMasks)) : step s = .next (deriveMasksAccepted len s) := by
  rw [step_of_command (turn_of_no_host hhost) h0 hcmd, decodeCmd_deriveMasks]
  exact deriveMasksStarts len _ h0

/-- From M_TBITS a DERIVE_MASKS ends after its two micro-operations: the budget fits TBITS, so M_MASKS finds it there
(R29, R160). -/
theorem run_mask_chain {s : State} (hrun : s.letsRun) (hseq : s.seq = Useq.mTbits) :
    Host.Core.run Sys2Proof.core 2 s = .next (masksDerived s.diffValue s) := by
  obtain ⟨-, -, hfits⟩ := bitBudgetIsInRange s.diffValue
  refine run_micro .mTbits hrun (by rw [hseq]; rfl) (execMTbits_next.2 rfl) ?_
  refine run_micro .mMasks hrun rfl (execMMasks_next.2 rfl) ?_
  simp only [Host.Core.run, State.tbitsValue, valueOf_true, hfits]
  rfl

end Sys2Proof.Machine

open Sys2Proof Sys2Proof.Machine

/-- Settles O32: DIFF is read as it stands. -/
theorem tbitsWritesTheBudget : Obligations.TbitsWritesTheBudget := by
  refine ⟨rfl, fun s hset => execMTbits_next.2 ?_⟩
  obtain ⟨vDiff, -⟩ := value_of_holds s
  rw [vDiff hset]

/-- Settles O33: TBITS is read as it stands, and the four masks are listed in slot order. -/
theorem masksWritesTheFourMasks : Obligations.MasksWritesTheFourMasks := by
  refine ⟨rfl, fun s hset => execMMasks_next.2 ?_⟩
  obtain ⟨-, -, -, -, -, -, -, vTbits, -⟩ := value_of_holds s
  rw [vTbits hset]
  rfl

/-- Settles O54: acceptance, then the two micro-operations, which read DIFF as it was before the command. -/
theorem deriveMasksCommandComputesTheMasks : Obligations.DeriveMasksCommandComputesTheMasks := by
  intro s len d hhost h0 hcmd hd
  have hdiff : (deriveMasksAccepted len s).diffValue = d := diffValue_eq hd
  have hchain := run_mask_chain (s := deriveMasksAccepted len s) (.inl hhost) rfl
  rw [hdiff] at hchain
  refine (run_of_step (step_deriveMasks hhost h0 hcmd) hchain).trans ?_
  simp only [masksDerived, deriveMasksAccepted, status_start_finish]
end

section
/-! The bit reversal, its swap network, and a whole BITREV32 (spec/43_bitreverse.md R180 to R183). -/

namespace Sys2Proof.Machine

/-- `m` picks the lower position of every pair that lies `n` apart: the partner `i ^^^ n` of position `i` is `n` above
where `m` has a one and `n` below where it has none (R182). -/
def picksLowerOfPairs (m : Word) (n : Fin 32) : Prop :=
  ∀ i < 32,
    (m.getLsbD i = true → i ^^^ n.val = n.val + i ∧ (n.val ≤ i → m.getLsbD (i - n.val) = false)) ∧
    (m.getLsbD i = false → i ^^^ n.val = i - n.val ∧ n.val ≤ i ∧ m.getLsbD (i - n.val) = true)

/-- The constants of the five stages (R182). -/
theorem picksLowerOfPairs_stages :
    picksLowerOfPairs 0x55555555 1 ∧ picksLowerOfPairs 0x33333333 2 ∧ picksLowerOfPairs 0x0F0F0F0F 4 ∧
    picksLowerOfPairs 0x00FF00FF 8 ∧ picksLowerOfPairs 0x0000FFFF 16 := by
  unfold picksLowerOfPairs
  refine ⟨?_, ?_, ?_, ?_, ?_⟩ <;> decide

/-- A stage gives every position the bit of its partner. -/
theorem getLsbD_swapStage {m : Word} {n : Fin 32} (h : picksLowerOfPairs m n) (w : Word) {i : Nat} (hi : i < 32) :
    (swapStage m n w).getLsbD i = w.getLsbD (i ^^^ n.val) := by
  obtain ⟨hlower, hupper⟩ := h i hi
  simp only [swapStage, shr32_eq, shl32_eq, BitVec.getLsbD_or, BitVec.getLsbD_and, BitVec.getLsbD_ushiftRight,
    BitVec.getLsbD_shiftLeft]
  cases hm : m.getLsbD i with
  | true =>
    obtain ⟨hpartner, hbelow⟩ := hlower hm
    by_cases hn : n.val ≤ i
    · simp [hpartner, hbelow hn]
    · simp [hpartner, Nat.not_le.1 hn]
  | false =>
    obtain ⟨hpartner, hn, hbelow⟩ := hupper hm
    simp [hi, hpartner, hbelow, Nat.not_lt.2 hn]

/-- The partners of the five stages in turn lead from every position to its mirror image. -/
theorem xor_stages_eq_mirror : ∀ i < 32, i ^^^ 16 ^^^ 8 ^^^ 4 ^^^ 2 ^^^ 1 = 31 - i := by decide

/-- The five-stage network moves bit `31 - i` to bit `i`, as the reversal does (R181, R182). -/
theorem bitrevNetwork_eq_bitrev32 (w : Word) : bitrevNetwork w = bitrev32 w := by
  obtain ⟨h1, h2, h4, h8, h16⟩ := picksLowerOfPairs_stages
  refine BitVec.eq_of_getLsbD_eq fun i hi => ?_
  have hi16 : i ^^^ 16 < 32 := Nat.xor_lt_two_pow (n := 5) hi (by decide)
  have hi8 : i ^^^ 16 ^^^ 8 < 32 := Nat.xor_lt_two_pow (n := 5) hi16 (by decide)
  have hi4 : i ^^^ 16 ^^^ 8 ^^^ 4 < 32 := Nat.xor_lt_two_pow (n := 5) hi8 (by decide)
  have hi2 : i ^^^ 16 ^^^ 8 ^^^ 4 ^^^ 2 < 32 := Nat.xor_lt_two_pow (n := 5) hi4 (by decide)
  calc (bitrevNetwork w).getLsbD i
    _ = w.getLsbD (i ^^^ 16 ^^^ 8 ^^^ 4 ^^^ 2 ^^^ 1) := by
      rw [bitrevNetwork, getLsbD_swapStage h16 _ hi]
      exact (getLsbD_swapStage h8 _ hi16).trans <| (getLsbD_swapStage h4 _ hi8).trans <|
        (getLsbD_swapStage h2 _ hi4).trans (getLsbD_swapStage h1 _ hi2)
    _ = (bitrev32 w).getLsbD i := by
      rw [xor_stages_eq_mirror i hi, getLsbD_bitrev32, decide_eq_true hi, Bool.true_and]

/-- The word of BITREV32 decodes to BITREV32. -/
theorem decodeCmd_bitrev32 (len : BitVec 7) : decodeCmd (cmdWord len Op.bitrev32) = .bitrev32 len :=
  Except.ok.inj (decode_encode (.bitrev32 len))

/-- Acceptance of BITREV32 at IDLE, which looks at no length (R94, R180). -/
theorem execBitrev32_idle (len : BitVec 7) {s : State} (h0 : s.seq = Useq.idle) :
    execBitrev32 len s = .next
      { s with
        opr := Op.bitrev32, lenr := len, brV := false
        status := (s.status ||| 0x01) &&& ~~~0x02, seq := Useq.rRev } :=
  execBitrev32_next.2 (.inl ⟨h0, rfl⟩)

/-- `s` when the BITREV32 of length field `len` on its port has been accepted (R94). -/
def bitrev32Accepted (len : BitVec 7) (s : State) : State :=
  { s with
    cmd := none, opr := Op.bitrev32, lenr := len, brV := false
    status := (s.status ||| 0x01) &&& ~~~0x02, seq := Useq.rRev }

/-- The first step of a BITREV32 is its acceptance (R94). -/
theorem step_bitrev32 {s : State} {len : BitVec 7} (hhost : s.host = []) (h0 : s.seq = Useq.idle)
    (hcmd : s.cmd = some (cmdWord len Op.bitrev32)) : step s = .next (bitrev32Accepted len s) := by
  rw [step_of_command (turn_of_no_host hhost) h0 hcmd, decodeCmd_bitrev32]
  exact execBitrev32_idle len h0

/-- A register as it is read, holding a value or not (R40; log 1). -/
theorem valueOf_eq {α : Type} {given : Bool} {v d : α} {free : α → α}
    (h : (given = true ∧ d = v) ∨ (given = false ∧ d = free v)) : valueOf given v free = d := by
  rcases h with ⟨rfl, rfl⟩ | ⟨rfl, rfl⟩
  · exact valueOf_true d free
  · exact valueOf_false v free

end Sys2Proof.Machine

open Sys2Proof Sys2Proof.Machine

/-- Settles O25: `bitrevNetwork_eq_bitrev32`. -/
theorem swapNetworkIsBitReversal : Obligations.SwapNetworkIsBitReversal := bitrevNetwork_eq_bitrev32

/-- Settles O55: acceptance, then R_REV, which reads BRIN as it was before the command. -/
theorem bitrev32CommandReverses : Obligations.Bitrev32CommandReverses := by
  intro s len w hhost h0 hcmd hw
  have hbrin : s.brinValue = w := valueOf_eq hw
  refine run_of_step (step_bitrev32 hhost h0 hcmd)
    (run_micro .rRev (.inl hhost) rfl (execRRev_next.2 rfl) ?_)
  simp only [Host.Core.run, bitrev32Accepted, status_start_finish, ← hbrin]
  rfl

/-- Settles O24: the table's rows, acceptance, and R_REV with BRIN read as it stands. -/
theorem revWritesReversedWord : Obligations.RevWritesReversedWord := by
  refine ⟨fun len => decode_encode (.bitrev32 len), decode_encode .rRev,
    fun len s h0 => execBitrev32_idle len h0, fun s hset => execRRev_next.2 ?_, fun w i hi => ?_⟩
  · obtain ⟨-, vBrin, -⟩ := value_of_holds s
    rw [vBrin hset]
  · rw [getLsbD_bitrev32, decide_eq_true hi, Bool.true_and]

/-- Settles O26: `31 - (31 - i)` is `i`, and the three operations act bit by bit. -/
theorem bitReversalIsAnInvolution : Obligations.BitReversalIsAnInvolution := by
  refine ⟨fun w => BitVec.eq_of_getLsbD_eq fun i hi => ?_, fun v w => ⟨?_, ?_, ?_⟩⟩
  · have hback : 31 - (31 - i) = i := by omega
    have hmirror : 31 - i < 32 := by omega
    simp [hi, hback, hmirror]
  all_goals
    refine BitVec.eq_of_getLsbD_eq fun i hi => ?_
    simp [hi]
end

section
/-! The two hardware faults: their entry, that nothing else enters HALT, and that only reset leaves it
(spec/60_exceptions.md R190 to R194, R198). -/

namespace Sys2Proof.Machine

/-- A host action but reset writes the inputs, the command port and the host's own fields alone, and HDR with BUSY = 0
only (spec/10_state.md R41). -/
theorem hostAct_frame {a : HostAct} {s t : State} (ha : a ≠ .rst) (h : hostAct a s = .next t) :
    t = { s with
      hdr := t.hdr, diff := t.diff, diffSet := t.diffSet, brin := t.brin, brinSet := t.brinSet,
      cmd := t.cmd, host := t.host, reads := t.reads } ∧ (s.busy = true → t.hdr = s.hdr) := by
  cases a
  case wrHdr addr bytes =>
    simp only [hostAct] at h
    split at h
    next =>
      obtain ⟨hb, rfl⟩ := hostWrite_next.1 h
      exact ⟨rfl, fun hbusy => absurd (hb.symm.trans hbusy) (by decide)⟩
    next => cases h
  case wrDiff | wrBrin =>
    obtain ⟨-, rfl⟩ := hostWrite_next.1 h
    exact ⟨rfl, fun _ => rfl⟩
  case read r =>
    obtain ⟨v, -, rfl⟩ := hostRead_next.1 h
    exact ⟨rfl, fun _ => rfl⟩
  case rst => exact absurd rfl ha
  case present | withdraw | hold | wait | tick =>
    cases h
    exact ⟨rfl, fun _ => rfl⟩

/-- A host action leaves SEQ, or sets it to IDLE by reset. -/
theorem hostAct_seq {a : HostAct} {s t : State} (h : hostAct a s = .next t) : t.seq = s.seq ∨ t.seq = Useq.idle := by
  by_cases ha : a = .rst
  · subst ha
    cases h
    exact .inr rfl
  · rw [(hostAct_frame ha h).1]
    exact .inl rfl

/-- No micro-operation is followed by HALT (R97, R194). -/
theorem successor_ne_halt : ∀ u : BitVec 5, successor u ≠ Useq.halt := by decide

/-- The command words whose acceptance takes a hardware fault (R191, R192). -/
theorem command_of_halt {i : Instr} {s t : State} (hi : isMicro i = false) (h : exec i s = .next t)
    (h0 : s.seq = Useq.idle) (ht : t.seq = Useq.halt) :
    (∃ len, i = .reservedOp0 len) ∨ ∃ len, i = .hash len ∧ len ≠ 80 ∧ len ≠ 84 := by
  cases i <;> cases hi
  case reservedOp0 len => exact .inl ⟨len, rfl⟩
  case hash len =>
    obtain rfl := ((execHash_next.1 h).resolve_right fun h => h.1 h0).2
    refine .inr ⟨len, rfl, not_or.1 fun hl => ?_⟩
    rw [if_pos hl] at ht
    cases ht
  case deriveMasks len =>
    obtain rfl := ((execDeriveMasks_next.1 h).resolve_right fun h => h.1 h0).2
    cases ht
  case bitrev32 len =>
    obtain rfl := ((execBitrev32_next.1 h).resolve_right fun h => h.1 h0).2
    cases ht

end Sys2Proof.Machine

open Sys2Proof Sys2Proof.Machine

/-- Settles O8: acceptance of HASH, in the branch of an illegal length. -/
theorem hashOfOtherLengthTakesLengthFault : Obligations.HashOfOtherLengthTakesLengthFault := by
  intro len s h0 h80 h84
  exact execHash_next.2 (.inl ⟨h0, (if_neg (not_or.2 ⟨h80, h84⟩)).symm⟩)

/-- Settles O9: acceptance of the reserved code, which looks at no length. -/
theorem reservedCommandTakesOpFault : Obligations.ReservedCommandTakesOpFault := by
  intro len s h0
  exact execReservedOp0_next.2 (.inl ⟨h0, rfl⟩)

/-- Settles O46: a host action and a micro-operation never set SEQ to HALT, so it was a command word that did. -/
theorem onlyAcceptanceEntersHalt : Obligations.OnlyAcceptanceEntersHalt := by
  intro s t hs h ht
  rcases step_cases h with ⟨a, r, -, -, ha⟩ | ⟨u, hu, ⟨h0, -, rfl⟩ | ⟨c, h0, hc, hx⟩ | ⟨hhalt, -⟩ | ⟨i, hd, hx⟩⟩
  · rcases hostAct_seq ha with hseq | hseq
    · exact absurd (hseq.symm.trans ht) hs
    · exact absurd (hseq.symm.trans ht) (by decide)
  · exact absurd (h0.symm.trans ht) (by decide)
  · have hcode := encode_decodeCmd c
    refine ⟨u, c, hu, h0, hc, ?_⟩
    rcases command_of_halt (isMicro_decodeCmd c) hx h0 ht with ⟨len, hi⟩ | ⟨len, hi, hlen⟩
    · rw [hi] at hcode
      cases hcode
      exact .inl (cmdOp_cmdWord _ _)
    · rw [hi] at hcode
      cases hcode
      rw [cmdOp_cmdWord, cmdLen_cmdWord]
      exact .inr ⟨rfl, hlen⟩
  · rw [turn_eq hu] at hhalt
    exact absurd hhalt hs
  · exact absurd ((microStep_of_decode hd hx).seq.symm.trans ht) (successor_ne_halt _)

/-- Settles O47: in HALT the sequencer's move changes nothing, and a host action stays inside its frame. -/
theorem onlyResetLeavesHalt : Obligations.OnlyResetLeavesHalt := by
  intro s t hs hrst h
  cases hturn : s.turn with
  | some u =>
    have hu := turn_eq hturn
    have hhalt : u.seq = Useq.halt := by
      rw [hu]
      exact hs
    rw [step_of_halt hturn hhalt] at h
    cases h
    rw [hu]
  | none =>
    cases hh : s.host with
    | nil => exact absurd (hturn.symm.trans (turn_of_no_host hh)) nofun
    | cons a r =>
      rw [step_of_no_turn hh hturn] at h
      have ha : a ≠ .rst := by
        rintro rfl
        exact hrst (by rw [hh]; rfl)
      exact (hostAct_frame ha h).1
end

section
/-! The result invariant (spec/60_exceptions.md R193, spec/40_hashchain.md R110) is kept by every step. -/

namespace Sys2Proof.Machine

section
variable {κ : Type} {C : ContextEngine κ} {m h1 : Bytes} {first seq : Nat} {c : κ}

/-- Outside the three places between `init` and `finalize` nothing is said of a context (R37). -/
theorem ctxHolds.outside (h : seq < first ∨ first + 2 < seq) : ctxHolds C m h1 first seq c :=
  ⟨fun _ => by omega, fun _ => by omega, fun _ => by omega⟩

/-- A context after `init` (R113). -/
theorem ctxHolds.init : ctxHolds C m h1 first first C.init :=
  ⟨fun _ => rfl, fun _ => by omega, fun _ => by omega⟩

/-- The first of the two updates takes the header (R114). -/
theorem ctxHolds.update_header (h : ctxHolds C m h1 first first c) :
    ctxHolds C m h1 first (first + 1) (C.update c m) :=
  ⟨fun _ => by omega, fun _ => by rw [h.1 rfl], fun _ => by omega⟩

/-- The second takes H1 (R115, R128). -/
theorem ctxHolds.update_h1 (h : ctxHolds C m h1 first (first + 1) c) :
    ctxHolds C m h1 first (first + 2) (C.update c h1) :=
  ⟨fun _ => by omega, fun _ => by omega, fun _ => by rw [h.2.1 rfl]⟩

/-- The digest of a context that took the header and then H1 (R110, R116). -/
theorem ctxHolds.finalize (h : ctxHolds C m h1 first (first + 2) c) :
    words16 (C.finalize c) = auxDigest C m h1 := by
  rw [h.2.2 rfl, auxDigest]

/-- A context is read as it stands where something is said of it (R35). -/
theorem ctxHolds.read {given : Bool} {free : κ → κ} (hv : given = true ↔ first ≤ seq ∧ seq ≤ first + 2)
    (h : ctxHolds C m h1 first seq c) : ctxHolds C m h1 first seq (valueOf given c free) := by
  by_cases hg : given = true
  · rwa [hg, valueOf_true]
  · have := mt hv.2 hg
    exact .outside (by omega)

end

/-- The registers and the contexts of HASH hold the chain of the header `m`, as far as SEQ has come (R110). -/
structure State.ChainOf (s : State) (m : Bytes) : Prop where
  digests : s.chainHolds Config.engines m
  kc : ctxHolds Config.engines.keccak512 m (Config.engines.hefty1 m).toList 4 s.seq.toNat s.kc
  gc : ctxHolds Config.engines.groestl512 m (Config.engines.hefty1 m).toList 8 s.seq.toNat s.gc
  bc : ctxHolds Config.engines.blake512 m (Config.engines.hefty1 m).toList 12 s.seq.toNat s.bc

/-- At H_HEFTY no flag of HASH is set yet. -/
theorem State.Control.chainOf_at_hefty {s : State} (hc : s.Control) (h : s.seq = Useq.hHefty) (m : Bytes) :
    s.ChainOf m := by
  obtain ⟨fH1, fH2, fAux1, fAux2, fAux3, fOut⟩ := hc.flagsHash (by rw [h]; decide) (by rw [h]; decide)
  rw [h] at fH1 fH2 fAux1 fAux2 fAux3
  have unset {b : Bool} {n : Nat} {P : Prop} (hb : b = true ↔ n ≤ Useq.hHefty.toNat) (hn : 1 < n) (hv : b = true) :
      P := absurd (hb.1 hv) (Nat.not_le.2 hn)
  refine ⟨⟨unset fH1 (by decide), unset fH2 (by decide), unset fAux1 (by decide), unset fAux2 (by decide),
    unset fAux3 (by decide), fun h => absurd (fOut.symm.trans h) (by decide)⟩, ?_, ?_, ?_⟩
  all_goals
    rw [h]
    exact .outside (.inl (by decide))

/-- The chain at a SEQ code known by name, where what is said of the contexts can be decided. -/
theorem State.ChainOf.of_seq {s : State} {m : Bytes} {u : BitVec 5} (hu : s.seq = u)
    (digests : s.chainHolds Config.engines m)
    (kc : ctxHolds Config.engines.keccak512 m (Config.engines.hefty1 m).toList 4 u.toNat s.kc)
    (gc : ctxHolds Config.engines.groestl512 m (Config.engines.hefty1 m).toList 8 u.toNat s.gc)
    (bc : ctxHolds Config.engines.blake512 m (Config.engines.hefty1 m).toList 12 u.toNat s.bc) : s.ChainOf m := by
  subst hu
  exact ⟨digests, kc, gc, bc⟩

/-- After H_HEFTY a micro-operation of HASH reads the digest of the header in H1 (R111). -/
theorem State.ChainOf.h1Value_eq {s : State} {m : Bytes} (hch : s.ChainOf m) (hc : s.Control)
    (h2 : 2 ≤ s.seq.toNat) (h15 : s.seq.toNat ≤ 15) : s.h1Value = Config.engines.hefty1 m := by
  obtain ⟨hH1, -⟩ := hch.digests
  obtain ⟨fH1, -⟩ := hc.flagsHash (by omega) h15
  obtain ⟨-, -, vH1, -⟩ := value_of_holds s
  exact (vH1 (fH1.2 h2)).trans (hH1 (fH1.2 h2))

/-- H_COMBINE reads the four sources of the header (R127, R140). -/
theorem State.ChainOf.sources_eq {s : State} {m : Bytes} (hch : s.ChainOf m) (hc : s.Control)
    (h : s.seq = Useq.hCombine) : s.sources = chainSources Config.engines m := by
  obtain ⟨-, hH2, hAux1, hAux2, hAux3, -⟩ := hch.digests
  obtain ⟨-, fH2, fAux1, fAux2, fAux3, -⟩ := hc.flagsHash (by rw [h]; decide) (by rw [h]; decide)
  rw [h] at fH2 fAux1 fAux2 fAux3
  have gH2 := fH2.2 (by decide)
  have gAux1 := fAux1.2 (by decide)
  have gAux2 := fAux2.2 (by decide)
  have gAux3 := fAux3.2 (by decide)
  obtain ⟨-, -, -, vH2, vAux1, vAux2, vAux3, -⟩ := value_of_holds s
  rw [State.sources, vH2 gH2, vAux1 gAux1, vAux2 gAux2, vAux3 gAux3, hH2 gH2, hAux1 gAux1, hAux2 gAux2, hAux3 gAux3,
    chainSources]

/-- A micro-operation of HASH takes the chain of the header in HDR one place further. -/
theorem micro_keeps_chain {i : Instr} {s t : State} {m : Bytes} (hc : s.Control) (hch : s.ChainOf m)
    (hm : s.header = some m) (hd : decodeUseq s.seq = .ok i) (h15 : s.seq.toNat ≤ 15) (h : exec i s = .next t) :
    t.ChainOf m := by
  have readH1 := hch.h1Value_eq hc
  have readSources := hch.sources_eq hc
  obtain ⟨hH1, hH2, hAux1, hAux2, hAux3, hOut⟩ := hch.digests
  obtain ⟨fKc, fGc, fBc⟩ := hc.flagsCtx
  have hkc := hch.kc.read (free := s.noValue.kc) fKc
  have hgc := hch.gc.read (free := s.noValue.gc) fGc
  have hbc := hch.bc.read (free := s.noValue.bc) fBc
  have hcode := encode_of_decodeUseq hd
  have hseq := (microStep_of_decode hd h).seq
  generalize s.seq = u at *
  cases i <;> cases hcode
  case mTbits | mMasks | rRev => exact absurd h15 (by decide)
  case hHefty =>
    obtain ⟨-, m', hm', rfl⟩ := execHHefty_next.1 h
    cases hm.symm.trans hm'
    exact .of_seq hseq ⟨fun _ => rfl, hH2, hAux1, hAux2, hAux3, hOut⟩
      (.outside (by decide)) (.outside (by decide)) (.outside (by decide))
  case hSha =>
    obtain ⟨-, m', hm', rfl⟩ := execHSha_next.1 h
    cases hm.symm.trans hm'
    have hdigest : words8 (Config.engines.sha256 (m ++ s.h1Value.toList)) = chainedDigest Config.engines m := by
      rw [readH1 (by decide) (by decide), chainedDigest]
    exact .of_seq hseq ⟨hH1, fun _ => hdigest, hAux1, hAux2, hAux3, hOut⟩
      (.outside (by decide)) (.outside (by decide)) (.outside (by decide))
  case hKInit =>
    obtain rfl := execHKInit_next.1 h
    exact .of_seq hseq hch.digests .init (.outside (by decide)) (.outside (by decide))
  case hKUpdIn =>
    obtain ⟨-, m', hm', rfl⟩ := execHKUpdIn_next.1 h
    cases hm.symm.trans hm'
    exact .of_seq hseq hch.digests hkc.update_header (.outside (by decide)) (.outside (by decide))
  case hKUpdH1 =>
    rw [exec, execHKUpdH1_next, readH1 (by decide) (by decide)] at h
    subst h
    exact .of_seq hseq hch.digests hkc.update_h1 (.outside (by decide)) (.outside (by decide))
  case hKFin =>
    obtain rfl := execHKFin_next.1 h
    exact .of_seq hseq ⟨hH1, hH2, fun _ => hkc.finalize, hAux2, hAux3, hOut⟩
      (.outside (by decide)) (.outside (by decide)) (.outside (by decide))
  case hGInit =>
    obtain rfl := execHGInit_next.1 h
    exact .of_seq hseq hch.digests (.outside (by decide)) .init (.outside (by decide))
  case hGUpdIn =>
    obtain ⟨-, m', hm', rfl⟩ := execHGUpdIn_next.1 h
    cases hm.symm.trans hm'
    exact .of_seq hseq hch.digests (.outside (by decide)) hgc.update_header (.outside (by decide))
  case hGUpdH1 =>
    rw [exec, execHGUpdH1_next, readH1 (by decide) (by decide)] at h
    subst h
    exact .of_seq hseq hch.digests (.outside (by decide)) hgc.update_h1 (.outside (by decide))
  case hGFin =>
    obtain rfl := execHGFin_next.1 h
    exact .of_seq hseq ⟨hH1, hH2, hAux1, fun _ => hgc.finalize, hAux3, hOut⟩
      (.outside (by decide)) (.outside (by decide)) (.outside (by decide))
  case hBInit =>
    obtain rfl := execHBInit_next.1 h
    exact .of_seq hseq hch.digests (.outside (by decide)) (.outside (by decide)) .init
  case hBUpdIn =>
    obtain ⟨-, m', hm', rfl⟩ := execHBUpdIn_next.1 h
    cases hm.symm.trans hm'
    exact .of_seq hseq hch.digests (.outside (by decide)) (.outside (by decide)) hbc.update_header
  case hBUpdH1 =>
    rw [exec, execHBUpdH1_next, readH1 (by decide) (by decide)] at h
    subst h
    exact .of_seq hseq hch.digests (.outside (by decide)) (.outside (by decide)) hbc.update_h1
  case hBFin =>
    obtain rfl := execHBFin_next.1 h
    exact .of_seq hseq ⟨hH1, hH2, hAux1, hAux2, fun _ => hbc.finalize, hOut⟩
      (.outside (by decide)) (.outside (by decide)) (.outside (by decide))
  case hCombine =>
    rw [exec, execHCombine_next, readSources rfl] at h
    subst h
    exact .of_seq hseq ⟨hH1, hH2, hAux1, hAux2, hAux3, fun _ => rfl⟩
      (.outside (by decide)) (.outside (by decide)) (.outside (by decide))

/-- While HASH runs, a step that completes found the header in HDR and the registers with its chain. -/
theorem State.Results.chain_of_running {i : Instr} {s t : State} (hr : s.Results) (hc : s.Control)
    (hd : decodeUseq s.seq = .ok i) (h15 : s.seq.toNat ≤ 15) (h : exec i s = .next t) :
    ∃ m, s.header = some m ∧ s.ChainOf m := by
  by_cases h2 : 2 ≤ s.seq.toNat
  · obtain ⟨m, hm, hdigests, hkc, hgc, hbc⟩ := hr.running h2 h15
    exact ⟨m, hm, hdigests, hkc, hgc, hbc⟩
  · obtain ⟨h1, -⟩ := decodeUseq_range hd
    have hone : s.seq.toNat = 1 := by omega
    have hseq : s.seq = Useq.hHefty := BitVec.eq_of_toNat_eq hone
    have hi : decodeUseq Useq.hHefty = .ok i := hseq ▸ hd
    cases hi
    obtain ⟨-, m, hm, -⟩ := execHHefty_next.1 h
    exact ⟨m, hm, hc.chainOf_at_hefty hseq m⟩

/-- The result invariant with SEQ outside HASH. -/
theorem results_of_outside {s : State} {u : BitVec 5} (hu : s.seq = u) (hout : u = Useq.idle ∨ 16 ≤ u.toNat)
    (hashed : ∃ m : Bytes, (m.length = 80 ∨ m.length = 84) ∧ s.chainHolds Config.engines m)
    (budget : s.tbitsV = true → ∃ d, s.tbits.toNat = deriveTbits d)
    (masks : s.maskV = true → s.tbitsV = true ∧ s.mask = deriveMasks s.tbits.toNat) : s.Results := by
  refine ⟨fun h2 h15 => ?_, fun _ => hashed, budget, masks⟩
  rw [hu] at h2 h15
  rcases hout with rfl | h16
  · exact absurd h2 (by decide)
  · omega

/-- The result invariant with SEQ inside HASH. -/
theorem results_of_inside {s : State} {u : BitVec 5} (hu : s.seq = u) (h1 : 1 ≤ u.toNat) (h15 : u.toNat ≤ 15)
    (running : 2 ≤ u.toNat → ∃ m, s.header = some m ∧ s.ChainOf m)
    (budget : s.tbitsV = true → ∃ d, s.tbits.toNat = deriveTbits d)
    (masks : s.maskV = true → s.tbitsV = true ∧ s.mask = deriveMasks s.tbits.toNat) : s.Results := by
  subst hu
  refine ⟨fun h2 _ => ?_, fun hout => ?_, budget, masks⟩
  · obtain ⟨m, hm, hch⟩ := running h2
    exact ⟨m, hm, hch.digests, hch.kc, hch.gc, hch.bc⟩
  · rcases hout with h0 | h16
    · rw [h0] at h1
      exact absurd h1 (by decide)
    · omega

/-- Of the fields a host action writes the result invariant reads HDR alone, and that while HASH runs. -/
theorem State.Results.with_inputs {s : State} (hr : s.Results) {mem : Memory}
    (hmem : 2 ≤ s.seq.toNat → s.seq.toNat ≤ 15 → mem = s.hdr) {d : BitVec 64} {ds : Bool}
    {b : Word} {bs : Bool} {c : Option (BitVec 9)} {h : List HostAct} {r : List ReadBack} {chip resets : Nat} :
    ({ s with
      hdr := mem, diff := d, diffSet := ds, brin := b, brinSet := bs, cmd := c, host := h, reads := r, chip := chip,
      resets := resets } : State).Results :=
  { hr with
    running := fun h2 h15 => by
      obtain rfl := hmem h2 h15
      exact hr.running h2 h15 }

/-- The micro-operations of each command (R97). -/
theorem decodeUseq_by_command {u : BitVec 5} {i : Instr} (hd : decodeUseq u = .ok i) :
    (u.toNat ≤ 15 ∧ commandOf i = Op.hash) ∨ (u = Useq.mTbits ∧ i = .mTbits) ∨ (u = Useq.mMasks ∧ i = .mMasks) ∨
    (u = Useq.rRev ∧ i = .rRev) := by
  have hcode := encode_of_decodeUseq hd
  cases i <;> cases hcode
  case mTbits => exact .inr (.inl ⟨rfl, rfl⟩)
  case mMasks => exact .inr (.inr (.inl ⟨rfl, rfl⟩))
  case rRev => exact .inr (.inr (.inr ⟨rfl, rfl⟩))
  all_goals exact .inl ⟨by decide, rfl⟩

/-- After a code of HASH comes a later one of HASH, or IDLE (R97). -/
theorem successor_in_hash :
    ∀ u : BitVec 5, 1 ≤ u.toNat → u.toNat ≤ 15 →
      successor u = Useq.idle ∨ 1 ≤ (successor u).toNat ∧ (successor u).toNat ≤ 15 := by
  decide

/-- A micro-operation of HASH keeps the result invariant. -/
theorem hash_micro_keeps_results {i : Instr} {s t : State} (hc : s.Control) (hr : s.Results)
    (hd : decodeUseq s.seq = .ok i) (h15 : s.seq.toNat ≤ 15) (hi : commandOf i = Op.hash) (h : exec i s = .next t) :
    t.Results := by
  obtain ⟨h1, -⟩ := decodeUseq_range hd
  obtain ⟨m, hm, hch⟩ := hr.chain_of_running hc hd h15 h
  have hstep := microStep_of_decode hd h
  have hcht := micro_keeps_chain hc hch hm hd h15 h
  obtain ⟨-, hdr, -⟩ := instructionsLeaveInputsAlone i s t h
  obtain ⟨-, hframe, -⟩ := instructionsWriteTheirOwnCommandOnly i s t h
  obtain ⟨hT, hM, hTV, hMV⟩ := hframe (by rw [hi]; decide)
  have budget := hr.budget
  have masks := hr.masks
  rw [← hT, ← hTV] at budget
  rw [← hT, ← hM, ← hTV, ← hMV] at masks
  rcases successor_in_hash s.seq h1 h15 with hend | ⟨hs1, hs15⟩
  · have hlen := length_header_legal hm (hc.latchHash h1 h15).2
    exact results_of_outside hstep.seq (.inl hend) ⟨m, hlen, hcht.digests⟩ budget masks
  · have hmt : t.header = some m := (header_congr hdr hstep.lenr).trans hm
    exact results_of_inside hstep.seq hs1 hs15 (fun _ => ⟨m, hmt, hcht⟩) budget masks

/-- A micro-operation keeps the result invariant. -/
theorem micro_keeps_results {i : Instr} {s t : State} (hc : s.Control) (hr : s.Results)
    (hd : decodeUseq s.seq = .ok i) (h : exec i s = .next t) : t.Results := by
  obtain ⟨hT, hM⟩ := hc.flagsMask
  rcases decodeUseq_by_command hd with ⟨h15, hi⟩ | ⟨hseq, rfl⟩ | ⟨hseq, rfl⟩ | ⟨hseq, rfl⟩
  · exact hash_micro_keeps_results hc hr hd h15 hi h
  all_goals have hashed := hr.hashed (.inr (by rw [hseq]; decide))
  · obtain rfl := execMTbits_next.1 h
    obtain ⟨-, hmaskV⟩ := hT hseq
    obtain ⟨-, -, hfits⟩ := bitBudgetIsInRange s.diffValue
    exact results_of_outside (u := Useq.mMasks) rfl (by decide) hashed (fun _ => ⟨_, hfits⟩)
      (fun h => absurd (hmaskV.symm.trans h) (by decide))
  · obtain rfl := execMMasks_next.1 h
    obtain ⟨htbitsV, -⟩ := hM hseq
    obtain ⟨-, -, -, -, -, -, -, vTbits, -⟩ := value_of_holds s
    exact results_of_outside rfl (.inl rfl) hashed hr.budget (fun _ => ⟨htbitsV, by rw [vTbits htbitsV]⟩)
  · obtain rfl := execRRev_next.1 h
    exact results_of_outside rfl (.inl rfl) hashed hr.budget hr.masks

/-- A command word taken at IDLE keeps the result invariant: what it does not clear is as before. -/
theorem command_keeps_results {i : Instr} {s t : State} (hi : isMicro i = false) (hr : s.Results)
    (h : exec i s = .next t) (h0 : s.seq = Useq.idle) : t.Results := by
  have hashed := hr.hashed (.inl h0)
  cases i <;> cases hi
  case hash len =>
    obtain rfl := ((execHash_next.1 h).resolve_right fun h => h.1 h0).2
    split
    next =>
      exact results_of_inside (u := Useq.hHefty) rfl (by decide) (by decide) (fun h => absurd h (by decide)) hr.budget
        hr.masks
    next => exact results_of_outside (u := Useq.halt) rfl (by decide) hashed hr.budget hr.masks
  case reservedOp0 len =>
    obtain rfl := ((execReservedOp0_next.1 h).resolve_right fun h => h.1 h0).2
    exact results_of_outside (u := Useq.halt) rfl (by decide) hashed hr.budget hr.masks
  case deriveMasks len =>
    obtain rfl := ((execDeriveMasks_next.1 h).resolve_right fun h => h.1 h0).2
    exact results_of_outside (u := Useq.mTbits) rfl (by decide) hashed nofun nofun
  case bitrev32 len =>
    obtain rfl := ((execBitrev32_next.1 h).resolve_right fun h => h.1 h0).2
    exact results_of_outside (u := Useq.rRev) rfl (by decide) hashed hr.budget hr.masks

/-- A host action keeps the result invariant: while HASH runs, BUSY holds HDR still. -/
theorem hostAct_keeps_results {a : HostAct} {s t : State} (hc : s.Control) (hr : s.Results)
    (h : hostAct a s = .next t) : t.Results := by
  by_cases ha : a = .rst
  · subst ha
    cases h
    exact invariantsHoldAtReset.2.with_inputs fun _ _ => rfl
  · obtain ⟨hframe, hdr⟩ := hostAct_frame ha h
    obtain ⟨hbusy, -⟩ := statusBitsExcludeOneAnother s hc
    rw [hframe]
    refine hr.with_inputs fun h2 h15 => hdr (hbusy.2 ⟨fun h0 => ?_, fun h31 => ?_⟩)
    · rw [h0] at h2
      exact absurd h2 (by decide)
    · rw [h31] at h15
      exact absurd h15 (by decide)

end Sys2Proof.Machine

open Sys2Proof Sys2Proof.Machine

/-- Settles O43: a step is a host action, the acceptance of a command word, a micro-operation or no change, and each
keeps the result invariant. -/
theorem stepKeepsResultsCorrect : Obligations.StepKeepsResultsCorrect := by
  intro s u hc hr h
  rcases step_cases h with ⟨a, r, -, -, ha⟩ | ⟨t, ht, hstep⟩
  · exact hostAct_keeps_results (hc.with_inputs hc.hdrWf) (hr.with_inputs fun _ _ => rfl) ha
  · have hct := hc.of_turn ht
    have hrt : t.Results := by
      rw [turn_eq ht]
      exact hr.with_inputs fun _ _ => rfl
    rcases hstep with ⟨-, -, rfl⟩ | ⟨c, h0, -, hx⟩ | ⟨-, rfl⟩ | ⟨i, hd, hx⟩
    · exact hrt
    · exact command_keeps_results (isMicro_decodeCmd c) (hrt.with_inputs fun _ _ => rfl) hx h0
    · exact hrt
    · exact micro_keeps_results hct hrt hd hx
end

section
/-! A step with reset asserted (spec/10_state.md R42, spec/70_reset_and_hazards.md R220). -/

namespace Sys2Proof.Machine

/-- The state right after reset has the reset values (R42). -/
theorem hasResetValues_reset : State.reset.hasResetValues :=
  ⟨rfl, rfl, rfl, rfl, rfl, fun f => by cases f <;> rfl, readByte_nil, rfl, rfl, rfl⟩

/-- What a reset step keeps, the host's own fields and which instance it is, is no reset value (R42; log 19). -/
theorem hasResetValues_resetBlock (s : State) : (resetBlock s).hasResetValues := hasResetValues_reset

end Sys2Proof.Machine

open Sys2Proof Sys2Proof.Machine

/-- Settles O48: with `rst` next the step is the host's, whatever SEQ and the command port hold. -/
theorem resetStepGivesTheResetValues : Obligations.ResetStepGivesTheResetValues := by
  refine ⟨fun s r hhost => ⟨_, step_of_no_turn hhost ?_, hasResetValues_resetBlock _⟩, hasResetValues_reset⟩
  rw [State.turn, hhost]
end

section
/-! A command in progress comes to its end (spec/70_reset_and_hazards.md R231). -/

namespace Sys2Proof.Machine

/-- How many micro-operations of a command are left at SEQ code `u`, that one included (R97). -/
def stepsLeft (u : BitVec 5) : Nat :=
  if u.toNat ≤ 15 then 16 - u.toNat else if u.toNat ≤ 17 then 18 - u.toNat else 19 - u.toNat

/-- At the last micro-operation of a command one is left, and at any other one more than at the next. -/
theorem stepsLeft_of_micro :
    ∀ u : BitVec 5, 1 ≤ u.toNat → u.toNat ≤ 18 →
      stepsLeft u ≤ 15 ∧
      stepsLeft u = if u = 15 ∨ u = 17 ∨ u = 18 then 1 else stepsLeft (u + 1) + 1 := by
  decide

/-- A command is in progress with its header there, if it is HASH, and the host lets it run. -/
structure State.inCommand (s : State) : Prop where
  control : s.Control
  host : s.host = []
  busy : s.busy = true
  inputs : s.inputsHold

/-- A command is over and its result is there (R31). -/
def State.commandDone (s : State) : Prop := s.seq = Useq.idle ∧ s.done = true ∧ s.busy = false

/-- With BUSY 1 SEQ names a micro-operation (R30, R32). -/
theorem State.inCommand.micro {s : State} (h : s.inCommand) : ∃ i, decodeUseq s.seq = .ok i := by
  obtain ⟨hbusy, -⟩ := statusBitsExcludeOneAnother s h.control
  obtain ⟨h0, h31⟩ := hbusy.1 h.busy
  exact decodeUseq_of_used h0 (h.control.seqUsed.resolve_right h31)

/-- A micro-operation that is not the last of its command leaves the header where it found it. -/
theorem inputsHold_of_micro {i : Instr} {s t : State} (hd : decodeUseq s.seq = .ok i) (hin : s.inputsHold)
    (h : exec i s = .next t) (hnext : t.seq = s.seq + 1) : t.inputsHold := by
  intro _ h15
  obtain ⟨h1, h18⟩ := decodeUseq_range hd
  have hsucc : t.seq.toNat = s.seq.toNat + 1 := by bv_omega
  have hdr : t.hdr = s.hdr := by rw [exec_eq_ownFields h]; rfl
  rw [header_congr hdr (microStep_of_decode hd h).lenr]
  exact hin h1 (by omega)

/-- One step of a command in progress ends the command or brings it one micro-operation nearer to its end. -/
theorem State.inCommand.step {s : State} (h : s.inCommand) :
    ∃ t, Machine.step s = .next t ∧
      ((stepsLeft s.seq = 1 ∧ t.commandDone) ∨ (stepsLeft s.seq = stepsLeft t.seq + 1 ∧ t.inCommand)) := by
  obtain ⟨i, hd⟩ := h.micro
  obtain ⟨h1, h18⟩ := decodeUseq_range hd
  have hturn := turn_of_no_host h.host
  obtain ⟨t, ht⟩ := runningCommandNeverStops s s h.control hturn h.inputs
  have hexec : exec i s = .next t := (step_of_micro hturn hd).symm.trans ht
  have hleft := (stepsLeft_of_micro s.seq h1 h18).2
  have hsucc := successorOfEachMicroOperation s.seq i s t hd hexec
  refine ⟨t, ht, ?_⟩
  split at hsucc
  next hlast =>
    obtain ⟨hidle, hbusy, hdone, -⟩ := hsucc
    rw [if_pos hlast] at hleft
    exact .inl ⟨hleft, hidle, hdone, hbusy⟩
  next hlast =>
    obtain ⟨hnext, hstatus⟩ := hsucc
    rw [if_neg hlast, ← hnext] at hleft
    have hhost : t.host = s.host := by rw [exec_eq_ownFields hexec]; rfl
    have hbusy : t.busy = s.busy := congrArg (·.getLsbD 0) hstatus
    exact .inr ⟨hleft, stepKeepsControl s t h.control ht, hhost.trans h.host, hbusy.trans h.busy,
      inputsHold_of_micro hd h.inputs hexec hnext⟩

/-- A command in progress ends after as many steps as it has micro-operations left. -/
theorem State.inCommand.run_stepsLeft {s : State} (h : s.inCommand) :
    ∃ t, Host.Core.run Sys2Proof.core (stepsLeft s.seq) s = .next t ∧ t.commandDone := by
  generalize hk : stepsLeft s.seq = k
  induction k generalizing s with
  | zero =>
    obtain ⟨t, -, ⟨h1, -⟩ | ⟨hleft, -⟩⟩ := h.step <;> omega
  | succ k ih =>
    obtain ⟨t, ht, ⟨h1, hdone⟩ | ⟨hleft, hin⟩⟩ := h.step
    · obtain rfl : k = 0 := by omega
      exact ⟨t, run_of_step ht rfl, hdone⟩
    · obtain ⟨u, hu, hdone⟩ := ih hin (by omega)
      exact ⟨u, run_of_step ht hu, hdone⟩

end Sys2Proof.Machine

open Sys2Proof Sys2Proof.Machine

/-- Settles O50: the micro-operations left, of which there are at most the fifteen of HASH. -/
theorem commandReachesItsEnd : Obligations.CommandReachesItsEnd := by
  intro s hc hhost hb hin
  have h : s.inCommand := ⟨hc, hhost, hb, hin⟩
  obtain ⟨i, hd⟩ := h.micro
  obtain ⟨h1, h18⟩ := decodeUseq_range hd
  obtain ⟨t, ht, hdone⟩ := h.run_stepsLeft
  exact ⟨stepsLeft s.seq, (stepsLeft_of_micro s.seq h1 h18).1, t, ht, hdone⟩
end
